-- ==== Sys2Proof/Word.lean ====
section
/-! DEFINITION. The value types of the machine: 16-bit words, 8-bit characters and register indices
(spec 00_scope.md R7, R9, R11; 10_state.md R30). -/

namespace Sys2Proof

/-- A 16-bit word: a register's contents, a memory cell, an address, an instruction (R7, R11). Its `+`, `&&&` and
`~~~` are the spec's modulo-65536 sum, bitwise AND and complement. -/
abbrev Word := BitVec 16

/-- A character: one 8-bit byte (R9). -/
abbrev Byte := BitVec 8

/-- The index of a general register R0..R7 (R30). -/
abbrev Reg := Fin 8

end Sys2Proof
end

