-- ==== Sys2Proof/Syntax.lean ====
section
/-! DEFINITION. The instruction set as syntax: one constructor per row of spec/opcode_table.json, with the operands
that the decode function of 30_encoding.md R103 gives it. Immediates and offsets are the sign-extended 16-bit words of
R93, so the machine never sees a raw field; WellFormed.lean says which words a field can give. -/

namespace Sys2Proof

/-- One decoded instruction (30_encoding.md R103). Bits that no field covers (R100) are not part of it. -/
inductive Instr where
  /-- BR, opcode 0x0 (43_control.md R201): the condmask bits and pcoffset9. -/
  | br (n z p : Bool) (off : Word)
  /-- ADD, register mode, opcode 0x1 (41_operate.md R153). -/
  | addReg (dr sr1 sr2 : Reg)
  /-- ADD, immediate mode, opcode 0x1 (R153). -/
  | addImm (dr sr1 : Reg) (imm : Word)
  /-- LD, opcode 0x2 (42_load_store.md R171). -/
  | ld (dr : Reg) (off : Word)
  /-- ST, opcode 0x3 (R175). -/
  | st (sr : Reg) (off : Word)
  /-- JSR, opcode 0x4 with bit 11 = 1 (43_control.md R203). -/
  | jsr (off : Word)
  /-- JSRR, opcode 0x4 with bit 11 = 0 (R204). -/
  | jsrr (baseR : Reg)
  /-- AND, register mode, opcode 0x5 (41_operate.md R154). -/
  | andReg (dr sr1 sr2 : Reg)
  /-- AND, immediate mode, opcode 0x5 (R154). -/
  | andImm (dr sr1 : Reg) (imm : Word)
  /-- LDR, opcode 0x6 (42_load_store.md R173). -/
  | ldr (dr baseR : Reg) (off : Word)
  /-- STR, opcode 0x7 (R177). -/
  | str (sr baseR : Reg) (off : Word)
  /-- RTI, opcode 0x8 (45_reserved.md R261). -/
  | rti
  /-- NOT, opcode 0x9 (41_operate.md R155). -/
  | not (dr sr : Reg)
  /-- LDI, opcode 0xA (42_load_store.md R172). -/
  | ldi (dr : Reg) (off : Word)
  /-- STI, opcode 0xB (R176). -/
  | sti (sr : Reg) (off : Word)
  /-- JMP, opcode 0xC (43_control.md R202); RET is JMP R7. -/
  | jmp (baseR : Reg)
  /-- RES, opcode 0xD (45_reserved.md R260). -/
  | res
  /-- LEA, opcode 0xE (42_load_store.md R174). -/
  | lea (dr : Reg) (off : Word)
  /-- TRAP, opcode 0xF (44_trap.md R220). -/
  | trap (vect : BitVec 8)
  deriving DecidableEq, Repr

end Sys2Proof
end

