-- ==== Sys2Proof/WellFormed.lean ====
section
/-! DEFINITION. Which instruction terms have an encoding: every immediate and offset lies in the signed range of its
field (30_encoding.md R94). "An offset that does not fit its field is an assembly error, not an encoding" (R106). -/

namespace Sys2Proof

/-- The signed value of `w` lies in the range of a `bits`-bit two's-complement field (R94). -/
def fitsSigned (bits : Nat) (w : Word) : Bool :=
  decide (-(2 ^ (bits - 1) : Int) ≤ w.toInt) && decide (w.toInt < (2 ^ (bits - 1) : Int))

/-- An instruction term that some 16-bit word encodes (R94, R99). -/
def Instr.wf : Instr → Bool
  | .br _ _ _ off => fitsSigned 9 off
  | .addReg _ _ _ => true
  | .addImm _ _ imm => fitsSigned 5 imm
  | .ld _ off => fitsSigned 9 off
  | .st _ off => fitsSigned 9 off
  | .jsr off => fitsSigned 11 off
  | .jsrr _ => true
  | .andReg _ _ _ => true
  | .andImm _ _ imm => fitsSigned 5 imm
  | .ldr _ _ off => fitsSigned 6 off
  | .str _ _ off => fitsSigned 6 off
  | .rti => true
  | .not _ _ => true
  | .ldi _ off => fitsSigned 9 off
  | .sti _ off => fitsSigned 9 off
  | .jmp _ => true
  | .res => true
  | .lea _ off => fitsSigned 9 off
  | .trap _ => true

end Sys2Proof
end

