-- ==== Sys2Proof/Decode.lean ====
section
/-! DEFINITION. The instruction decoder as one total function on all 65536 words (30_encoding.md R92, R103), its named
field extractors, which are the Decoder block's outputs (R93, R104), and the encoder written from the format table R99 and the opcode map R95. -/

namespace Sys2Proof

/-! ### Field extractors (R93) -/

/-- `sext_N` (00_scope.md R12): bit N-1 of the field copied into bits 15..N. -/
def sext {n : Nat} (v : BitVec n) : Word := v.signExtend 16

/-- The opcode, bits [15:12] (R91). -/
def opcode (w : Word) : BitVec 4 := w.extractLsb' 12 4

/-- `rest`, "the raw 12 low bits", bits [11:0]: the decoder's second output (R92, R104). -/
def restBits (w : Word) : BitVec 12 := w.extractLsb' 0 12

/-- `dr(w)`, bits [11:9]: DR, or the SR of a store. -/
def fieldDr (w : Word) : Reg := (w.extractLsb' 9 3).toFin

/-- `sr1(w)`, bits [8:6]: SR1, the SR of NOT, or BaseR. -/
def fieldSr1 (w : Word) : Reg := (w.extractLsb' 6 3).toFin

/-- `sr2(w)`, bits [2:0]. -/
def fieldSr2 (w : Word) : Reg := (w.extractLsb' 0 3).toFin

/-- `imm_mode(w)`, bit 5: 1 selects the immediate (R96). PRESUMED polarity; unsafe (notes/assumptions/2.md). -/
def immMode (w : Word) : Bool := w.getLsbD 5

/-- `imm5(w)`, bits [4:0] sign-extended. -/
def imm5 (w : Word) : Word := sext (w.extractLsb' 0 5)

/-- `offset6(w)`, bits [5:0] sign-extended. -/
def offset6 (w : Word) : Word := sext (w.extractLsb' 0 6)

/-- `pcoffset9(w)`, bits [8:0] sign-extended. -/
def pcoffset9 (w : Word) : Word := sext (w.extractLsb' 0 9)

/-- `pcoffset11(w)`, bits [10:0] sign-extended. -/
def pcoffset11 (w : Word) : Word := sext (w.extractLsb' 0 11)

/-- `jsr_mode(w)`, bit 11: 1 selects JSR (R97). PRESUMED polarity; unsafe (notes/assumptions/2.md). -/
def jsrMode (w : Word) : Bool := w.getLsbD 11

/-- `condmask(w)`, bits [11:9]: BR's n, z, p (R98). PRESUMED order; unsafe (notes/assumptions/3.md). -/
def condmask (w : Word) : BitVec 3 := w.extractLsb' 9 3

/-- `trapvect8(w)`, bits [7:0]. -/
def trapvect8 (w : Word) : BitVec 8 := w.extractLsb' 0 8

/-! ### The decode function (R103) -/

/-- The decoder: one arm per opcode value, bit 15 first as in the column of R95, no wildcard arm. The opcode numbers
are PRESUMED, the standard LC-3 ones the spec takes (D1); unsafe (notes/assumptions/1.md). BR's n, z, p are bits 11,
10, 9 (R98), PRESUMED; unsafe (notes/assumptions/3.md). Bits no field covers are ignored (R100), DEDUCED; unsafe
(notes/assumptions/4.md). -/
def decode (w : Word) : Instr :=
  match w.getLsbD 15, w.getLsbD 14, w.getLsbD 13, w.getLsbD 12 with
  | false, false, false, false => .br (w.getLsbD 11) (w.getLsbD 10) (w.getLsbD 9) (pcoffset9 w)
  | false, false, false, true =>
    match immMode w with
    | false => .addReg (fieldDr w) (fieldSr1 w) (fieldSr2 w)
    | true => .addImm (fieldDr w) (fieldSr1 w) (imm5 w)
  | false, false, true, false => .ld (fieldDr w) (pcoffset9 w)
  | false, false, true, true => .st (fieldDr w) (pcoffset9 w)
  | false, true, false, false =>
    match jsrMode w with
    | true => .jsr (pcoffset11 w)
    | false => .jsrr (fieldSr1 w)
  | false, true, false, true =>
    match immMode w with
    | false => .andReg (fieldDr w) (fieldSr1 w) (fieldSr2 w)
    | true => .andImm (fieldDr w) (fieldSr1 w) (imm5 w)
  | false, true, true, false => .ldr (fieldDr w) (fieldSr1 w) (offset6 w)
  | false, true, true, true => .str (fieldDr w) (fieldSr1 w) (offset6 w)
  | true, false, false, false => .rti
  | true, false, false, true => .not (fieldDr w) (fieldSr1 w)
  | true, false, true, false => .ldi (fieldDr w) (pcoffset9 w)
  | true, false, true, true => .sti (fieldDr w) (pcoffset9 w)
  | true, true, false, false => .jmp (fieldSr1 w)
  | true, true, false, true => .res
  | true, true, true, false => .lea (fieldDr w) (pcoffset9 w)
  | true, true, true, true => .trap (trapvect8 w)

/-! ### Words as bytes -/

/-- The two bytes of a word in the order of a program image, high byte first (20_memory.md R68). -/
def wordBytes (w : Word) : List Byte := [w.extractLsb' 8 8, w.extractLsb' 0 8]

/-- Why a byte list holds no instruction word. Every whole word decodes (R92), so a cut-off word is the only reason. -/
inductive DecodeError where
  /-- fewer than two bytes are left -/
  | truncatedWord
  deriving DecidableEq, Repr

/-- Read one instruction from the bytes of an image: the next word (b0 * 256 + b1, R68), and the bytes after it. -/
def decodeBytes : List Byte → Except DecodeError (Instr × List Byte)
  | b0 :: b1 :: rest => .ok (decode (b0 ++ b1 : BitVec (8 + 8)), rest)
  | [_] => .error .truncatedWord
  | [] => .error .truncatedWord

/-- The word whose bits are the low `nbits` bits of `w`, the bits above them 0. -/
def tableWord (nbits w : Nat) : Word := BitVec.ofNat 16 (w % 2 ^ nbits)

/-- What the decoder reads from the instruction whose bits are `w`, numbered as spec/opcode_table.json numbers them.
Every instruction is one word (R90), so the first word is all of it. -/
def decodeTableWord (nbits w : Nat) : Option Instr :=
  match decodeBytes (wordBytes (tableWord nbits w)) with
  | .ok (i, _) => some i
  | .error _ => none

/-! ### The encoder (R99) -/

/-- The 3-bit field that holds a register index. -/
def regBits (r : Reg) : BitVec 3 := BitVec.ofFin r

/-- The opcode field over the other 12 bits (R91, R92). -/
def joinOp (op : BitVec 4) (rest : BitVec 12) : Word := (op ++ rest : BitVec (4 + 12))

/-- Bits [11:9] over a 9-bit offset: BR, LD, LDI, LEA, ST, STI. -/
def join3And9 (hi : BitVec 3) (off : BitVec 9) : BitVec 12 := (hi ++ off : BitVec (3 + 9))

/-- Bits [11:9], bits [8:6] and bits [5:0]: ADD, AND, NOT, LDR, STR, JMP, JSRR. -/
def join3And3And6 (hi mid : BitVec 3) (low : BitVec 6) : BitVec 12 := (hi ++ (mid ++ low : BitVec (3 + 6)) : BitVec (3 + 9))

/-- Bits [5:0] of register mode: bit 5 and bits [4:3] zero, SR2 in [2:0]. -/
def lowReg (sr2 : Reg) : BitVec 6 := (0b000#3 ++ regBits sr2 : BitVec (3 + 3))

/-- Bits [5:0] of immediate mode: bit 5 one, imm5 in [4:0]. -/
def lowImm (imm : Word) : BitVec 6 := (0b1#1 ++ imm.setWidth 5 : BitVec (1 + 5))

/-- JSR's bits [11:0]: bit 11 one, pcoffset11 in [10:0]. -/
def joinJsr (off : Word) : BitVec 12 := (0b1#1 ++ off.setWidth 11 : BitVec (1 + 11))

/-- TRAP's bits [11:0]: bits [11:8] zero, trapvect8 in [7:0]. -/
def joinTrap (vect : BitVec 8) : BitVec 12 := (0x0#4 ++ vect : BitVec (4 + 8))

/-- BR's condmask field, bits [11:9]: n, z, p (R98). -/
def nzpBits (n z p : Bool) : BitVec 3 := (BitVec.ofBool n ++ (BitVec.ofBool z ++ BitVec.ofBool p : BitVec (1 + 1)) : BitVec (1 + 2))

/-- The word of an instruction, field by field from bit 15 down (R95, R99). Ignored bits get the standard assembler's
value: all ones for NOT, zero elsewhere (R99). PRESUMED; safe, decoding ignores them (notes/assumptions/23.md). -/
def encode : Instr → Word
  | .br n z p off => joinOp 0x0#4 (join3And9 (nzpBits n z p) (off.setWidth 9))
  | .addReg dr sr1 sr2 => joinOp 0x1#4 (join3And3And6 (regBits dr) (regBits sr1) (lowReg sr2))
  | .addImm dr sr1 imm => joinOp 0x1#4 (join3And3And6 (regBits dr) (regBits sr1) (lowImm imm))
  | .ld dr off => joinOp 0x2#4 (join3And9 (regBits dr) (off.setWidth 9))
  | .st sr off => joinOp 0x3#4 (join3And9 (regBits sr) (off.setWidth 9))
  | .jsr off => joinOp 0x4#4 (joinJsr off)
  | .jsrr baseR => joinOp 0x4#4 (join3And3And6 0b000#3 (regBits baseR) 0b000000#6)
  | .andReg dr sr1 sr2 => joinOp 0x5#4 (join3And3And6 (regBits dr) (regBits sr1) (lowReg sr2))
  | .andImm dr sr1 imm => joinOp 0x5#4 (join3And3And6 (regBits dr) (regBits sr1) (lowImm imm))
  | .ldr dr baseR off => joinOp 0x6#4 (join3And3And6 (regBits dr) (regBits baseR) (off.setWidth 6))
  | .str sr baseR off => joinOp 0x7#4 (join3And3And6 (regBits sr) (regBits baseR) (off.setWidth 6))
  | .rti => joinOp 0x8#4 0x000#12
  | .not dr sr => joinOp 0x9#4 (join3And3And6 (regBits dr) (regBits sr) 0b111111#6)
  | .ldi dr off => joinOp 0xA#4 (join3And9 (regBits dr) (off.setWidth 9))
  | .sti sr off => joinOp 0xB#4 (join3And9 (regBits sr) (off.setWidth 9))
  | .jmp baseR => joinOp 0xC#4 (join3And3And6 0b000#3 (regBits baseR) 0b000000#6)
  | .res => joinOp 0xD#4 0x000#12
  | .lea dr off => joinOp 0xE#4 (join3And9 (regBits dr) (off.setWidth 9))
  | .trap vect => joinOp 0xF#4 (joinTrap vect)

/-- The bits of an instruction's word that no field covers, which decoding ignores (R100). -/
def Instr.ignored : Instr → Word
  | .br _ _ _ _ => 0x0000#16
  | .addReg _ _ _ => 0x0018#16
  | .addImm _ _ _ => 0x0000#16
  | .ld _ _ => 0x0000#16
  | .st _ _ => 0x0000#16
  | .jsr _ => 0x0000#16
  | .jsrr _ => 0x063F#16
  | .andReg _ _ _ => 0x0018#16
  | .andImm _ _ _ => 0x0000#16
  | .ldr _ _ _ => 0x0000#16
  | .str _ _ _ => 0x0000#16
  | .rti => 0x0FFF#16
  | .not _ _ => 0x003F#16
  | .ldi _ _ => 0x0000#16
  | .sti _ _ => 0x0000#16
  | .jmp _ => 0x0E3F#16
  | .res => 0x0FFF#16
  | .lea _ _ => 0x0000#16
  | .trap _ => 0x0F00#16

/-! ### The opcode table's rows -/

/-- A row of spec/opcode_table.json tests a word as `w &&& mask = pattern`: its pattern ("match") and mask. -/
def Instr.row : Instr → Word × Word
  | .br _ _ _ _ => (0x0000#16, 0xF000#16)
  | .addReg _ _ _ => (0x1000#16, 0xF020#16)
  | .addImm _ _ _ => (0x1020#16, 0xF020#16)
  | .ld _ _ => (0x2000#16, 0xF000#16)
  | .st _ _ => (0x3000#16, 0xF000#16)
  | .jsr _ => (0x4800#16, 0xF800#16)
  | .jsrr _ => (0x4000#16, 0xF800#16)
  | .andReg _ _ _ => (0x5000#16, 0xF020#16)
  | .andImm _ _ _ => (0x5020#16, 0xF020#16)
  | .ldr _ _ _ => (0x6000#16, 0xF000#16)
  | .str _ _ _ => (0x7000#16, 0xF000#16)
  | .rti => (0x8000#16, 0xF000#16)
  | .not _ _ => (0x9000#16, 0xF000#16)
  | .ldi _ _ => (0xA000#16, 0xF000#16)
  | .sti _ _ => (0xB000#16, 0xF000#16)
  | .jmp _ => (0xC000#16, 0xF000#16)
  | .res => (0xD000#16, 0xF000#16)
  | .lea _ _ => (0xE000#16, 0xF000#16)
  | .trap _ => (0xF000#16, 0xF000#16)

/-- The row's test of a word. -/
def rowMatches (row : Word × Word) (w : Word) : Bool := w &&& row.2 == row.1

/-- The rows of spec/opcode_table.json in its order, as (match, mask). -/
def opcodeRows : List (Word × Word) :=
  [(0x0000#16, 0xF000#16), (0x1000#16, 0xF020#16), (0x1020#16, 0xF020#16), (0x2000#16, 0xF000#16),
   (0x3000#16, 0xF000#16), (0x4800#16, 0xF800#16), (0x4000#16, 0xF800#16), (0x5000#16, 0xF020#16),
   (0x5020#16, 0xF020#16), (0x6000#16, 0xF000#16), (0x7000#16, 0xF000#16), (0x8000#16, 0xF000#16),
   (0x9000#16, 0xF000#16), (0xA000#16, 0xF000#16), (0xB000#16, 0xF000#16), (0xC000#16, 0xF000#16),
   (0xD000#16, 0xF000#16), (0xE000#16, 0xF000#16), (0xF000#16, 0xF000#16)]

end Sys2Proof
end

