-- ==== Sys2Proof/Config.lean ====
section
/-! DEFINITION. What is fixed for one machine: the start address the spec gives (70_reset_and_hazards.md R303), and
the parameters it leaves open (00_scope.md R8), which are uninterpreted constants here: nothing in Lean can compute
them, so whatever is proved holds for every value of them. The one left out is LAUNCH_MEMORY, an argument of
`State.launch`. -/

namespace Sys2Proof

/-- The fixed start address 0x3000 (R303). -/
def Config.startAddress : Word := 0x3000#16

/-- IN_PROMPT, the bytes the IN routine writes as its prompt (R8, 92_eei_decisions.md D11). Open. DESIGN CHOICE: an
uninterpreted constant; safe (notes/assumptions/10.md). -/
opaque Config.inPrompt : List Byte

/-- HALT_BANNER, the bytes HALT writes before it stops, possibly none (R8, D12). Open. DESIGN CHOICE: an uninterpreted
constant; safe (notes/assumptions/10.md). -/
opaque Config.haltBanner : List Byte

/-- FAULT_EXIT_CODE, the host's exit code after a fatal fault; outside the core (R8, D16). Open. DESIGN CHOICE: an
uninterpreted constant; safe (notes/assumptions/10.md). -/
opaque Config.faultExitCode : Nat

/-- One answer of the input device to a read request (10_state.md R40, 44_trap.md R225). -/
inductive InAnswer where
  /-- a byte -/
  | byte (b : Byte)
  /-- a failure; the end of input is one (92_eei_decisions.md D10) -/
  | failure
  /-- no answer yet: the step that asked holds (40_cycle.md R134) -/
  | notYet
  deriving DecidableEq, Repr, Inhabited

/-- INPUT, the input device's behaviour (R8, D20): its answer to each read request of a run, the first numbered 0. Open.
DESIGN CHOICE: an uninterpreted constant, so a device that answers every request, or falls silent, or fails, is each one
value of it; safe (notes/assumptions/12.md). -/
opaque Config.input : Nat → InAnswer

end Sys2Proof
end

