-- ==== Sys2Proof/Machine/State.lean ====
section
/-! DEFINITION. The machine state as plain data (10_state.md), the reasons a step can stop, and the state after reset
(70_reset_and_hazards.md R300-R303). -/

namespace Sys2Proof.Machine

/-- The condition code: the three legal values of COND (10_state.md R37, R44). "COND always has exactly one of
{N, Z, P} asserted" holds by the type. -/
inductive Cond where
  /-- negative -/
  | n
  /-- zero -/
  | z
  /-- positive -/
  | p
  deriving DecidableEq, Repr

/-- The cause of a fatal fault (60_exceptions.md R271). -/
inductive FaultCause where
  /-- IllegalInstructionFault / ReservedOpcode: the opcode RES (R260) -/
  | reservedOpcode
  /-- IllegalInstructionFault / RTIUnimplemented: the opcode RTI (R261) -/
  | rtiUnimplemented
  /-- IllegalInstructionFault / UnknownTrapVector: TRAP with a vector the ROM has no routine for (R223) -/
  | unknownTrapVector
  /-- InputDeviceError: the input device failed in GETC or IN, or its input has ended (R225) -/
  | inputDeviceError
  deriving DecidableEq, Repr

/-- The run status (10_state.md R39). -/
inductive Status where
  /-- the run goes on -/
  | running
  /-- HALT ended the run -/
  | halted
  /-- a fatal fault ended the run: its cause, and the faulting instruction's address and word -/
  | faulted (cause : FaultCause) (addr word : Word)
  deriving DecidableEq, Repr

/-- Memory (20_memory.md R60): a list of the cells that do not read as zero, keyed by byte, the two bytes of the word
at address a under 2a (bits 15..8) and 2a + 1 (bits 7..0). DESIGN CHOICE, unobservable: safe
(notes/assumptions/11.md). Ops.lean reads and writes it one word at a time. -/
structure Memory where
  cells : List Host.Cell
  deriving DecidableEq, Repr

/-- The machine state record of 10_state.md R44: exactly its six fields. -/
structure CoreState where
  /-- R0..R7 (R30) -/
  regs : Vector Word 8
  /-- the program counter (R34) -/
  pc : Word
  /-- the condition-code register COND (R37) -/
  cond : Cond
  /-- memory (20_memory.md R60) -/
  mem : Memory
  /-- the run status (R39) -/
  status : Status
  /-- the bytes written to the output device so far, oldest first (R40) -/
  out : List Byte
  deriving DecidableEq, Repr

/-- How far the input device has come in a run: the stream `in` that R40 has a model keep "beside the core state". Its
answers are the parameter INPUT, not state. DESIGN CHOICE (notes/assumptions/12.md). -/
structure InDevice where
  /-- answers to the coming requests that are known beforehand, next first; they take the place of INPUT's for those
  requests, so that a run can be given its input as data -/
  known : List InAnswer
  /-- the number of requests the device has answered so far, answers 'no answer yet' included -/
  served : Nat
  deriving DecidableEq, Repr

/-- The state of a run: the machine state record of R44 (`toCoreState`), and beside it the input device. -/
structure State extends CoreState where
  /-- the input device (R40) -/
  input : InDevice
  deriving DecidableEq, Repr

/-- How a trap routine ends (40_cycle.md R135). -/
inductive RoutineEnd where
  /-- it ran to completion, to a halt or to a fatal fault, and leaves this state -/
  | done (s : State)
  /-- the input device has no answer yet: the whole TRAP step holds (R134) -/
  | hold
  /-- its string has no terminator anywhere in memory (44_trap.md R230) -/
  | diverge

/-- Why the model's machine stops without a next state. A fatal fault of the architecture (60_exceptions.md R270) is
not among these: it is a next state whose status is `faulted`. -/
inductive Fault where
  /-- The outcome `Diverge` (44_trap.md R230, 40_cycle.md R135), raised by TRAP PUTS and TRAP PUTSP: the string has no
  terminator in all of memory, the step never finishes and there is no next state. DESIGN CHOICE to show a hang as a
  stop; safe, since a stopped run is never a finished one (notes/assumptions/14.md). -/
  | stringDiverges
  /-- Raised by `step` in a state whose status is not `running`: "the run is over", a step has no outcome (R135, R39).
  DESIGN CHOICE; safe, no state follows (notes/assumptions/15.md). -/
  | runEnded
  deriving DecidableEq, Repr

/-- Why the model gives an instruction no meaning. -/
inductive Refusal where
  /-- An instruction whose meaning is not written, by its mnemonic, raised by exec's arm alone; safe. No arm of this
  model answers it. -/
  | notModelled (mnemonic : String)
  deriving DecidableEq, Repr

/-- The machine after reset, which is context creation (70_reset_and_hazards.md R300): registers and memory zero, COND
Z (R301, 90_conflicts.md C1; DEDUCED, notes/assumptions/5.md), PC the start address (R303), the run running, nothing
output. The device's answers are INPUT's from request 0 on, none known beforehand: DESIGN CHOICE, safe, INPUT being
open (notes/assumptions/12.md). -/
def State.reset : State where
  regs := Vector.replicate 8 0x0000#16
  pc := Config.startAddress
  cond := .z
  mem := { cells := [] }
  status := .running
  out := []
  input := { known := [], served := 0 }

/-- The state at the first fetch of a run (R302, R303): the reset state with the loader's memory (the parameter
LAUNCH_MEMORY) given from outside (00_scope.md R8), and the first answers of the input device where some are known;
with none, every answer is the open INPUT's (notes/assumptions/12.md). -/
def State.launch (launchMemory : Memory) (known : List InAnswer) : State :=
  { State.reset with mem := launchMemory, input := { known := known, served := 0 } }

end Sys2Proof.Machine
end

