-- ==== Sys2Proof/Machine/Ops.lean ====
section
/-! DEFINITION. The operations over memory, registers and devices that every meaning is written with (00_scope.md R14),
the fetch (40_cycle.md R131), and the ways a step ends: a fatal fault (60_exceptions.md R270), HALT and a hold. -/

namespace Sys2Proof.Machine

/-! ### Memory, one byte of the list at a time -/

/-- The byte listed under key `k`; an unlisted one is 0, the reset contents (20_memory.md R60). -/
def cellByte : List Host.Cell → Nat → Byte
  | [], _ => 0#8
  | (k', b) :: rest, k => if k' = k then b else cellByte rest k

/-- The list without its entries for key `k`. -/
def eraseCell (k : Nat) : List Host.Cell → List Host.Cell
  | [] => []
  | (k', b) :: rest => if k' = k then eraseCell k rest else (k', b) :: eraseCell k rest

/-- The list with an entry for `k` put before the first larger key. -/
def insertCell (k : Nat) (b : Byte) : List Host.Cell → List Host.Cell
  | [] => [(k, b)]
  | (k', b') :: rest => if k < k' then (k, b) :: (k', b') :: rest else (k', b') :: insertCell k b rest

/-- The list in which key `k` reads as `b`: a byte that an unlisted key reads as is not listed. -/
def setByte (cells : List Host.Cell) (k : Nat) (b : Byte) : List Host.Cell :=
  if b = 0#8 then eraseCell k cells else insertCell k b (eraseCell k cells)

/-- Keys strictly rising. -/
def keysRising : List Host.Cell → Bool
  | [] => true
  | [_] => true
  | (k, _) :: (k', b') :: rest => decide (k < k') && keysRising ((k', b') :: rest)

/-- The canonical form: keys strictly rising, every key inside the address space of 65536 words, no entry equal to what
an unlisted key reads as. -/
def Memory.wf (m : Memory) : Bool :=
  keysRising m.cells && m.cells.all (fun c => decide (c.1 < 131072) && !(c.2 == 0#8))

/-! ### Memory, one word at a time (R63, R64) -/

/-- The key of bits 15..8 of the word at address `a`. -/
def hiKey (a : Word) : Nat := 2 * a.toNat

/-- The key of bits 7..0 of the word at address `a`. -/
def loKey (a : Word) : Nat := 2 * a.toNat + 1

/-- `MemRead(a, 1)` (20_memory.md R63): the word at address `a`. -/
def Memory.read (m : Memory) (a : Word) : Word :=
  (cellByte m.cells (hiKey a) ++ cellByte m.cells (loKey a) : BitVec (8 + 8))

/-- `MemWrite(a, 1, v)` (R63): the word at address `a` becomes `v`. -/
def Memory.write (m : Memory) (a v : Word) : Memory :=
  { cells := setByte (setByte m.cells (hiKey a) (v.extractLsb' 8 8)) (loKey a) (v.extractLsb' 0 8) }

/-! ### Registers (10_state.md R43) -/

/-- `x[i]`: general register Ri. -/
def State.reg (s : State) (r : Reg) : Word := s.regs[r]

/-- `x[i] <- v`. -/
def State.setReg (s : State) (r : Reg) (v : Word) : State := { s with regs := s.regs.set r v }

/-- `pc <- target`. -/
def State.setPc (s : State) (target : Word) : State := { s with pc := target }

/-- R7, the link register (R32), receives the post-fetch PC. -/
def State.link (s : State) : State := s.setReg 7 s.pc

/-- A store: `MemWrite(a, 1, v)` on the state's memory. -/
def State.store (s : State) (a v : Word) : State := { s with mem := s.mem.write a v }

/-! ### Devices (10_state.md R40, 44_trap.md R225) -/

/-- `DevWrite` of the bytes in order: each is appended to `out` at once and none fails (92_eei_decisions.md D21;
notes/assumptions/21.md). -/
def State.devWrite (s : State) (bytes : List Byte) : State := { s with out := s.out ++ bytes }

/-- The input device's answer to the next read request: the one known beforehand, else INPUT's (10_state.md R40). DESIGN
CHOICE; safe (notes/assumptions/12.md). -/
def InDevice.answer (d : InDevice) : InAnswer :=
  match d.known with
  | a :: _ => a
  | [] => Config.input d.served

/-- The request has been answered: the device goes on to the next one. -/
def InDevice.next (d : InDevice) : InDevice := { known := d.known.tail, served := d.served + 1 }

/-- The device's answer to the next read request. -/
def State.answer (s : State) : InAnswer := s.input.answer

/-- The request has been answered. -/
def State.answered (s : State) : State := { s with input := s.input.next }

/-! ### Fetch (40_cycle.md R131) -/

/-- `ir <- MemRead(pc, 1)`. -/
def State.fetchWord (s : State) : Word := s.mem.read s.pc

/-- `pc <- pc + 1`, modulo 65536. -/
def State.advance (s : State) : State := { s with pc := s.pc + 1#16 }

/-- `a`, the address of the instruction being executed, in a state whose pc the fetch has advanced and no handler has
yet written (R34). DEDUCED; safe (notes/assumptions/17.md). -/
def State.instrAddr (s : State) : Word := s.pc - 1#16

/-- `ir`, the word at that address. DEDUCED; safe (notes/assumptions/17.md). -/
def State.instrWord (s : State) : Word := s.mem.read s.instrAddr

/-! ### How a step ends (R135) -/

/-- The cause's number (60_exceptions.md R271), a label of the spec's own (92_eei_decisions.md D24;
notes/assumptions/25.md). -/
def FaultCause.code : FaultCause → Nat
  | .reservedOpcode => 1
  | .rtiUnimplemented => 2
  | .unknownTrapVector => 3
  | .inputDeviceError => 4

/-- `raise`: the ONE way a fatal fault is taken (60_exceptions.md R270). No handler, no vector, no saved register: the
run status records the cause, `a` and `ir`, and everything written before stays. There is no return from it (R276), and
no rule clears it (92_eei_decisions.md D16). A next state, DEDUCED; safe (notes/assumptions/16.md). -/
def State.raise (s : State) (cause : FaultCause) : State :=
  { s with status := .faulted cause s.instrAddr s.instrWord }

/-- `halt`: the run ends normally (44_trap.md R232). -/
def State.halt (s : State) : State := { s with status := .halted }

/-- A hold (40_cycle.md R134): the step does not fire and nothing is written, "the fetch included", so pc is again the
TRAP's own address and the record of R44 is what it was before the fetch; only the device beside it has moved on past
its answer 'not yet'. DESIGN CHOICE to show it as a next state; safe (notes/assumptions/13.md). -/
def State.hold (s : State) : State := { s.answered with pc := s.instrAddr }

end Sys2Proof.Machine
end

