-- ==== Sys2Proof/Machine/Flags.lean ====
section
/-! DEFINITION. The Condition-Code Unit (40_cycle.md R136-R138), COND's one-hot encoding (10_state.md R37) and BR's test
of it (43_control.md R201). -/

namespace Sys2Proof.Machine

/-- `cc(v)` (40_cycle.md R137): Z for zero, N for bit 15 set, otherwise P. -/
def cc (v : Word) : Cond :=
  if v = 0x0000#16 then .z else if v.getLsbD 15 then .n else .p

/-- `setcc(v)` (R137): COND <- cc(v). -/
def State.setCC (s : State) (v : Word) : State := { s with cond := cc v }

/-- A flag-writing result: `x[DR] <- v; setcc(v)` (R138). -/
def State.setResult (s : State) (dr : Reg) (v : Word) : State := (s.setReg dr v).setCC v

/-- COND's 3-bit value (10_state.md R37). PRESUMED encoding; unsafe (notes/assumptions/3.md). -/
def Cond.bits : Cond → BitVec 3
  | .n => 0b100#3
  | .z => 0b010#3
  | .p => 0b001#3

/-- "(condmask & COND) != 0" (43_control.md R201), the condmask being n, z, p from its most significant bit
(30_encoding.md R98). PRESUMED order; unsafe (notes/assumptions/3.md). -/
def branchTaken (n z p : Bool) (c : Cond) : Bool := nzpBits n z p &&& c.bits != 0b000#3

end Sys2Proof.Machine
end

