-- ==== Sys2Proof/Machine/Operands.lean ====
section
/-! DEFINITION. The ALU (41_operate.md R150, R151), the address adder and its three addressing modes (42_load_store.md
R170), and the bytes inside a word (20_memory.md R68). -/

namespace Sys2Proof.Machine

/-- The ALU's operations (41_operate.md R150). -/
inductive AluOp where
  | add
  | and
  | not
  deriving DecidableEq, Repr

/-- The ALU function (R151): a modulo-65536 sum, a bitwise AND, a bitwise complement. It gives no flag (R150). -/
def alu (op : AluOp) (a b : Word) : Word :=
  match op with
  | .add => a + b
  | .and => a &&& b
  | .not => ~~~a

/-- PC-relative: `pc + offset` modulo 65536, pc the advanced value (42_load_store.md R170, 10_state.md R34). -/
def eaPcRelative (s : State) (off : Word) : Word := s.pc + off

/-- Indirect: the word in the pointer cell at the PC-relative address (R170). -/
def eaIndirect (s : State) (off : Word) : Word := s.mem.read (eaPcRelative s off)

/-- Base + offset: `x[BaseR] + offset` modulo 65536 (R170). -/
def eaBaseOffset (s : State) (baseR : Reg) (off : Word) : Word := s.reg baseR + off

/-- The "low byte", bits [7:0] (20_memory.md R68). -/
def lowByte (w : Word) : Byte := w.extractLsb' 0 8

/-- The "high byte", bits [15:8] (R68). -/
def highByte (w : Word) : Byte := w.extractLsb' 8 8

/-- `zext_8` (00_scope.md R13): a character in the low byte of a word, the high byte 0. -/
def zext8 (c : Byte) : Word := c.setWidth 16

end Sys2Proof.Machine
end

