-- ==== Sys2Proof/Machine/Control.lean ====
section
/-! DEFINITION. Control transfer: BR, JMP (RET), JSR, JSRR (43_control.md R200-R204). No target faults and none writes
COND (R200). -/

namespace Sys2Proof.Machine

/-- BR (R201): taken when the condmask and COND have a flag in common; otherwise pc stays the post-fetch value. -/
def execBr (n z p : Bool) (off : Word) (s : State) : Host.Outcome State Fault Refusal :=
  .next (if branchTaken n z p s.cond then s.setPc (eaPcRelative s off) else s)

/-- JMP (R202); RET is JMP R7. -/
def execJmp (baseR : Reg) (s : State) : Host.Outcome State Fault Refusal :=
  .next (s.setPc (s.reg baseR))

/-- JSR (R203): R7 receives the post-fetch pc. -/
def execJsr (off : Word) (s : State) : Host.Outcome State Fault Refusal :=
  .next (s.link.setPc (eaPcRelative s off))

/-- JSRR (R204): BaseR is read before R7 is written, so JSRR R7 jumps to R7's old value. The order is the spec's own
choice (92_eei_decisions.md D6; notes/assumptions/6.md). -/
def execJsrr (baseR : Reg) (s : State) : Host.Outcome State Fault Refusal :=
  .next (s.link.setPc (s.reg baseR))

end Sys2Proof.Machine
end

