-- ==== Sys2Proof/Machine/LoadStore.lean ====
section
/-! DEFINITION. Loads, LEA and stores (42_load_store.md R171-R177). No access can fault (20_memory.md R62). Loads and
LEA set the flags, stores do not (40_cycle.md R138). -/

namespace Sys2Proof.Machine

/-- LD (R171). -/
def execLd (dr : Reg) (off : Word) (s : State) : Host.Outcome State Fault Refusal :=
  .next (s.setResult dr (s.mem.read (eaPcRelative s off)))

/-- LDI (R172): the pointer cell is read, then the cell it points to. -/
def execLdi (dr : Reg) (off : Word) (s : State) : Host.Outcome State Fault Refusal :=
  .next (s.setResult dr (s.mem.read (eaIndirect s off)))

/-- LDR (R173). -/
def execLdr (dr baseR : Reg) (off : Word) (s : State) : Host.Outcome State Fault Refusal :=
  .next (s.setResult dr (s.mem.read (eaBaseOffset s baseR off)))

/-- LEA (R174): the address itself, "not dereferenced". -/
def execLea (dr : Reg) (off : Word) (s : State) : Host.Outcome State Fault Refusal :=
  .next (s.setResult dr (eaPcRelative s off))

/-- ST (R175). -/
def execSt (sr : Reg) (off : Word) (s : State) : Host.Outcome State Fault Refusal :=
  .next (s.store (eaPcRelative s off) (s.reg sr))

/-- STI (R176): the pointer cell is read, then the cell it points to is written. -/
def execSti (sr : Reg) (off : Word) (s : State) : Host.Outcome State Fault Refusal :=
  .next (s.store (eaIndirect s off) (s.reg sr))

/-- STR (R177). -/
def execStr (sr baseR : Reg) (off : Word) (s : State) : Host.Outcome State Fault Refusal :=
  .next (s.store (eaBaseOffset s baseR off) (s.reg sr))

end Sys2Proof.Machine
end

