-- ==== Sys2Proof/Machine/Operate.lean ====
section
/-! DEFINITION. The operate instructions ADD, AND and NOT (41_operate.md R153-R155). Each reads its operands in the
state before its writes (00_scope.md R15) and sets the flags from the value it writes. -/

namespace Sys2Proof.Machine

/-- ADD, register mode (R153). -/
def execAddReg (dr sr1 sr2 : Reg) (s : State) : Host.Outcome State Fault Refusal :=
  .next (s.setResult dr (alu .add (s.reg sr1) (s.reg sr2)))

/-- ADD, immediate mode (R153). -/
def execAddImm (dr sr1 : Reg) (imm : Word) (s : State) : Host.Outcome State Fault Refusal :=
  .next (s.setResult dr (alu .add (s.reg sr1) imm))

/-- AND, register mode (R154). -/
def execAndReg (dr sr1 sr2 : Reg) (s : State) : Host.Outcome State Fault Refusal :=
  .next (s.setResult dr (alu .and (s.reg sr1) (s.reg sr2)))

/-- AND, immediate mode (R154). -/
def execAndImm (dr sr1 : Reg) (imm : Word) (s : State) : Host.Outcome State Fault Refusal :=
  .next (s.setResult dr (alu .and (s.reg sr1) imm))

/-- NOT (R155). -/
def execNot (dr sr : Reg) (s : State) : Host.Outcome State Fault Refusal :=
  .next (s.setResult dr (alu .not (s.reg sr) 0x0000#16))

end Sys2Proof.Machine
end

