-- ==== Sys2Proof/Machine/Reserved.lean ====
section
/-! DEFINITION. The reserved opcodes (45_reserved.md R260, R261): each takes its fatal fault, and writes nothing but the
run status beyond the fetch's pc. -/

namespace Sys2Proof.Machine

/-- RES (R260). -/
def execRes (s : State) : Host.Outcome State Fault Refusal := .next (s.raise .reservedOpcode)

/-- RTI (R261): not implemented in this variant; it restores nothing. -/
def execRti (s : State) : Host.Outcome State Fault Refusal := .next (s.raise .rtiUnimplemented)

end Sys2Proof.Machine
end

