-- ==== Sys2Proof/Machine/Trap.lean ====
section
/-! DEFINITION. TRAP, the trap-vector ROM and the six built-in routines (44_trap.md R220-R233). A routine runs inside
its TRAP's step (R224), after R7 has received the link; it changes no flag and does not move pc (R220, R233;
notes/assumptions/7.md). -/

namespace Sys2Proof.Machine

/-- The built-in routines (R222). -/
inductive Routine where
  | getc
  | out
  | puts
  | inEcho
  | putsp
  | halt
  deriving DecidableEq, Repr

/-- The trap-vector ROM (R222): six codes have a routine, every other vector has none. -/
def trapRom (v : BitVec 8) : Option Routine :=
  if v = 0x20#8 then some .getc
  else if v = 0x21#8 then some .out
  else if v = 0x22#8 then some .puts
  else if v = 0x23#8 then some .inEcho
  else if v = 0x24#8 then some .putsp
  else if v = 0x25#8 then some .halt
  else none

/-- The number of a routine, v - 0x20 for its vector v (R222). -/
def Routine.code : Routine → BitVec 3
  | .getc => 0b000#3
  | .out => 0b001#3
  | .puts => 0b010#3
  | .inEcho => 0b011#3
  | .putsp => 0b100#3
  | .halt => 0b101#3

/-- The ROM's output `valid` (R222). -/
def romValid (v : BitVec 8) : Bool := (trapRom v).isSome

/-- The ROM's output `routine[2:0]` (R222), which it gives when valid. -/
def romRoutine (v : BitVec 8) : Option (BitVec 3) := (trapRom v).map Routine.code

/-- The string PUTS writes from `p` on (R228): the low byte of each word up to the first zero word, looking at no more
than `fuel` words; none when all of those are non-zero. -/
def putsBytes (m : Memory) : (fuel : Nat) → (p : Word) → Option (List Byte)
  | 0, _ => none
  | fuel + 1, p =>
    if m.read p = 0x0000#16 then some []
    else (putsBytes m fuel (p + 1#16)).map (lowByte (m.read p) :: ·)

/-- The string PUTSP writes from `p` on (R231): two characters a word, low byte first, up to the first zero byte, low or
high (92_eei_decisions.md D14; notes/assumptions/19.md); none when `fuel` words have no zero byte. -/
def putspBytes (m : Memory) : (fuel : Nat) → (p : Word) → Option (List Byte)
  | 0, _ => none
  | fuel + 1, p =>
    if lowByte (m.read p) = 0x00#8 then some []
    else if highByte (m.read p) = 0x00#8 then some [lowByte (m.read p)]
    else (putspBytes m fuel (p + 1#16)).map (fun rest => lowByte (m.read p) :: highByte (m.read p) :: rest)

/-- The words of memory. A scan of this many, each one on, meets every cell once, so one that meets no terminator never
ends (R230). It is no cut-off: a model must not stop after a bound and carry on (D13; notes/assumptions/14.md). -/
def allCells : Nat := 65536

/-- GETC (R226): one character, zero-extended in R0, no echo. -/
def trapGetc (s : State) : RoutineEnd :=
  match s.answer with
  | .byte c => .done (s.answered.setReg 0 (zext8 c))
  | .failure => .done (s.answered.raise .inputDeviceError)
  | .notYet => .hold

/-- OUT (R227): the low 8 bits of R0. -/
def trapOut (s : State) : RoutineEnd := .done (s.devWrite [lowByte (s.reg 0)])

/-- PUTS (R228). -/
def trapPuts (s : State) : RoutineEnd :=
  match putsBytes s.mem allCells (s.reg 0) with
  | some bytes => .done (s.devWrite bytes)
  | none => .diverge

/-- IN (R229): the prompt, one character, its echo, and the character zero-extended in R0. A failed read leaves the
prompt written, no echo and R0 as it was. -/
def trapIn (s : State) : RoutineEnd :=
  match s.answer with
  | .byte c => .done (((s.devWrite Config.inPrompt).answered.devWrite [c]).setReg 0 (zext8 c))
  | .failure => .done ((s.devWrite Config.inPrompt).answered.raise .inputDeviceError)
  | .notYet => .hold

/-- PUTSP (R231). -/
def trapPutsp (s : State) : RoutineEnd :=
  match putspBytes s.mem allCells (s.reg 0) with
  | some bytes => .done (s.devWrite bytes)
  | none => .diverge

/-- HALT (R232): the banner, then the run ends. The flush has no further effect, every byte being in `out` already. -/
def trapHalt (s : State) : RoutineEnd := .done (s.devWrite Config.haltBanner).halt

/-- The dispatcher (R224). -/
def runRoutine (r : Routine) (s : State) : RoutineEnd :=
  match r with
  | .getc => trapGetc s
  | .out => trapOut s
  | .puts => trapPuts s
  | .inEcho => trapIn s
  | .putsp => trapPutsp s
  | .halt => trapHalt s

/-- TRAP (R220): R7 receives the post-fetch pc, then the ROM selects the routine; a vector without one takes the fatal
fault UnknownTrapVector, after R7 is written (R223; notes/assumptions/8.md). A hold leaves the state before the TRAP. -/
def execTrap (vect : BitVec 8) (s : State) : Host.Outcome State Fault Refusal :=
  match trapRom vect with
  | none => .next (s.link.raise .unknownTrapVector)
  | some r =>
    match runRoutine r s.link with
    | .done t => .next t
    | .hold => .next s.hold
    | .diverge => .fault .stringDiverges

end Sys2Proof.Machine
end

