-- ==== Sys2Proof/Machine/Step.lean ====
section
/-! DEFINITION. One step of the Run Loop (40_cycle.md R130-R135). -/

namespace Sys2Proof.Machine

/-- One step: fetch the word at pc, advance pc, decode, dispatch (R131, R132). A run that is halted or faulted takes no
further step (10_state.md R39): the step has no outcome, which the model answers by the fault `runEnded`. -/
def step (s : State) : Host.Outcome State Fault Refusal :=
  match s.status with
  | .running => exec (decode s.fetchWord) s.advance
  | .halted => .fault .runEnded
  | .faulted _ _ _ => .fault .runEnded

/-- `s` with the instruction whose bits are the low `nbits` bits of `w` stored where the next step fetches: the word at
pc. A fetch happens only in a running state, so the status is `running`. It stands for the external load of a program
(70_reset_and_hazards.md R302; notes/assumptions/18.md). -/
def State.withFetchWord (s : State) (nbits w : Nat) : State :=
  { s with mem := s.mem.write s.pc (tableWord nbits w), status := .running }

end Sys2Proof.Machine
end

