-- ==== Sys2Proof/Machine/Loader.lean ====
section
/-! DEFINITION. What the external loader hands to the core (70_reset_and_hazards.md R302). The loader itself is out of the
spec's scope (00_scope.md R5); this file models as much of it as R302 and 20_memory.md R68 say, so that a launch memory
can be computed from image files. The step does not use it: a run starts from any memory (notes/assumptions/18.md). -/

namespace Sys2Proof.Machine

/-- The big-endian words of a file (R68); none where it is "truncated mid-word". -/
def imageWords : List Byte → Option (List Word)
  | [] => some []
  | [_] => none
  | b0 :: b1 :: rest => (imageWords rest).map ((b0 ++ b1 : BitVec (8 + 8)) :: ·)

/-- An image file: "a big-endian 16-bit origin address followed by a sequence of big-endian 16-bit words" (R302). -/
def parseImage (file : List Byte) : Option (Word × List Word) :=
  match imageWords file with
  | some (origin :: words) => some (origin, words)
  | some [] => none
  | none => none

/-- The words stored "contiguously in Memory starting at the origin" (R302). -/
def Memory.storeWords (m : Memory) (a : Word) : List Word → Memory
  | [] => m
  | w :: rest => (m.write a w).storeWords (a + 1#16) rest

/-- One file: a file that fails to load is skipped (R302). None where the words run past address 0xFFFF: what the loader
does then is left to it (92_eei_decisions.md D19), and the model claims no memory; safe (notes/assumptions/18.md). -/
def loadImage (m : Memory) (file : List Byte) : Option Memory :=
  match parseImage file with
  | none => some m
  | some (origin, words) =>
    if origin.toNat + words.length ≤ 65536 then some (m.storeWords origin words) else none

/-- The files in turn, so that a later file's words win where files overlap (R302). -/
def loadImages (m : Memory) : List (List Byte) → Option Memory
  | [] => some m
  | file :: files => (loadImage m file).bind (fun m' => loadImages m' files)

end Sys2Proof.Machine
end

