-- ==== Sys2Proof/Safety.lean ====
section
/-! DEFINITION. The terms claims are stated in: what a step leaves unchanged, what a flag says of a value, the host's exit
code, and the invariant a run keeps. Each but `storeAddr` is written from the spec's words, not from the operations the
meanings are written with. -/

namespace Sys2Proof.Machine

/-- Every word of memory reads as before. -/
def SameMemory (s t : State) : Prop := ∀ a, t.mem.read a = s.mem.read a

/-- Every word of memory but the one at `ea` reads as before, and that one reads as `v`. -/
def StoredAt (ea v : Word) (s t : State) : Prop :=
  t.mem.read ea = v ∧ ∀ a, a ≠ ea → t.mem.read a = s.mem.read a

/-- Every general register outside `changed` holds what it held. -/
def SameRegsBut (changed : List Reg) (s t : State) : Prop := ∀ r, r ∉ changed → t.reg r = s.reg r

/-- The run status and both device streams are as before. -/
def SameRun (s t : State) : Prop := t.status = s.status ∧ t.out = s.out ∧ t.input = s.input

/-- `c` is the flag 40_cycle.md R137 derives from `v`: v = 0 gives Z, v ≥ 0x8000 gives N, 1 ≤ v ≤ 0x7FFF gives P. -/
def FlagOf (v : Word) (c : Cond) : Prop :=
  (v.toNat = 0 → c = .z) ∧ (0x8000 ≤ v.toNat → c = .n) ∧ (1 ≤ v.toNat → v.toNat ≤ 0x7FFF → c = .p)

/-- From `s` to `t`, register `dr` receives `v`, COND its flag, and nothing else changes. -/
def WritesResult (dr : Reg) (v : Word) (s t : State) : Prop :=
  t.reg dr = v ∧ FlagOf v t.cond ∧ SameRegsBut [dr] s t ∧ t.pc = s.pc ∧ SameMemory s t ∧ SameRun s t

/-- From `s` to `t`, the word at `ea` receives `v` and nothing else changes. -/
def WritesMemory (ea v : Word) (s t : State) : Prop :=
  StoredAt ea v s t ∧ SameRegsBut [] s t ∧ t.cond = s.cond ∧ t.pc = s.pc ∧ SameRun s t

/-- The instruction's destination register where its handler calls the Condition-Code Unit (40_cycle.md R138): ADD, AND,
NOT, LD, LDI, LDR and LEA, and no other. -/
def flagWriter : Instr → Option Reg
  | .addReg dr _ _ => some dr
  | .addImm dr _ _ => some dr
  | .andReg dr _ _ => some dr
  | .andImm dr _ _ => some dr
  | .not dr _ => some dr
  | .ld dr _ => some dr
  | .ldi dr _ => some dr
  | .ldr dr _ _ => some dr
  | .lea dr _ => some dr
  | .br _ _ _ _ => none
  | .st _ _ => none
  | .sti _ _ => none
  | .str _ _ _ => none
  | .jmp _ => none
  | .jsr _ => none
  | .jsrr _ => none
  | .rti => none
  | .res => none
  | .trap _ => none

/-- The address a store instruction writes, in the state its handler runs in (42_load_store.md R170); none for an
instruction that stores nothing (20_memory.md R64). -/
def storeAddr (i : Instr) (s : State) : Option Word :=
  match i with
  | .st _ off => some (eaPcRelative s off)
  | .sti _ off => some (eaIndirect s off)
  | .str _ baseR off => some (eaBaseOffset s baseR off)
  | .addReg _ _ _ => none
  | .addImm _ _ _ => none
  | .andReg _ _ _ => none
  | .andImm _ _ _ => none
  | .not _ _ => none
  | .ld _ _ => none
  | .ldi _ _ => none
  | .ldr _ _ _ => none
  | .lea _ _ => none
  | .br _ _ _ _ => none
  | .jmp _ => none
  | .jsr _ => none
  | .jsrr _ => none
  | .rti => none
  | .res => none
  | .trap _ => none

/-- The host's exit code for a run status (60_exceptions.md R279): 0 after HALT, the open FAULT_EXIT_CODE after a fatal
fault. -/
def exitCode : Status → Option Nat
  | .running => none
  | .halted => some 0
  | .faulted _ _ _ => some Config.faultExitCode

/-- What an ended run's status says is true of the state it ended in (60_exceptions.md R270, R271; 44_trap.md R232):
the recorded address and word are those of the instruction just before pc, that word is of a kind that raises the
recorded cause, and where it is a TRAP, R7 holds the link. -/
def EndIsTrue (s : State) : Prop :=
  match s.status with
  | .running => True
  | .halted => decode (s.mem.read (s.pc - 1#16)) = .trap 0x25#8 ∧ s.reg 7 = s.pc
  | .faulted cause addr word =>
    addr = s.pc - 1#16 ∧ word = s.mem.read addr ∧
    match cause with
    | .reservedOpcode => decode word = .res
    | .rtiUnimplemented => decode word = .rti
    | .unknownTrapVector =>
      (∃ v, decode word = .trap v ∧ (v.toNat < 0x20 ∨ 0x25 < v.toNat)) ∧ s.reg 7 = s.pc
    | .inputDeviceError => (decode word = .trap 0x20#8 ∨ decode word = .trap 0x23#8) ∧ s.reg 7 = s.pc

/-- The invariant of a run: memory in canonical form, and a true record of the run's end. -/
def Inv (s : State) : Prop := s.mem.wf = true ∧ EndIsTrue s

end Sys2Proof.Machine
end

