-- ==== Sys2Proof/Certificates/Slice0/Obligations.lean ====
section
/-! DEFINITION. The statements for the provers. Each docstring names the rule of spec/ it formalises, and says so where a
clause rests on a decision the spec marks as its own or on an entry of notes/assumptions. In a statement about `exec`,
`s.pc` is the post-fetch pc (40_cycle.md R131). -/

open Sys2Proof Sys2Proof.Machine

/-! ### Reset -/

/-- 70_reset_and_hazards.md R300: after reset every register and every memory cell is zero, the run is running and
nothing has been output. -/
def Obligations.ResetIsZeroedAndRunning : Prop :=
  (∀ r, State.reset.reg r = 0x0000#16) ∧ (∀ a, State.reset.mem.read a = 0x0000#16) ∧
  State.reset.status = .running ∧ State.reset.out = []

/-- R303: whatever the loader left and whatever is known of the input, the first fetch is at 0x3000. The clause
COND = Z is the spec's own decision (R301, 90_conflicts.md C1; notes/assumptions/5.md). -/
def Obligations.LaunchStartsAtFixedAddress : Prop :=
  ∀ m known, (State.launch m known).pc = 0x3000#16 ∧ (State.launch m known).cond = .z ∧
    (State.launch m known).mem = m ∧ (∀ r, (State.launch m known).reg r = 0x0000#16) ∧
    (State.launch m known).status = .running

/-! ### The decoder -/

/-- 00_scope.md R12: `sext_N(v)` copies bit N-1 into bits 15..N, keeps the low bits and the signed value, and is
v + (65536 - 2^N) for a field whose top bit is 1. -/
def Obligations.SignExtensionKeepsTheValue : Prop :=
  ∀ (n : Nat) (v : BitVec n), 1 ≤ n → n ≤ 16 →
    (∀ i, i < n → (sext v).getLsbD i = v.getLsbD i) ∧
    (∀ i, n ≤ i → i < 16 → (sext v).getLsbD i = v.getLsbD (n - 1)) ∧
    (sext v).toInt = v.toInt ∧
    (sext v).toNat = if v.getLsbD (n - 1) then v.toNat + (65536 - 2 ^ n) else v.toNat

/-- Words written out from 30_encoding.md R99, one or more a family, and the instructions they stand for
(95_test_vectors.md). They rest on the opcode numbers and mode bits of R95 to R98 (notes/assumptions/1.md to 3.md). -/
def Obligations.SampleWordsDecode : Prop :=
  decode 0b0001011001000010#16 = .addReg 3 1 2 ∧
  decode 0b0101010010100000#16 = .andImm 2 2 0x0000#16 ∧
  decode 0b1001001010111111#16 = .not 1 2 ∧
  decode 0b0110010011111110#16 = .ldr 2 3 0xFFFE#16 ∧
  decode 0b1010001111111111#16 = .ldi 1 0xFFFF#16 ∧
  decode 0b1011100000000001#16 = .sti 4 0x0001#16 ∧
  decode 0b0000101100000000#16 = .br true false true 0xFF00#16 ∧
  decode 0b0100110000000000#16 = .jsr 0xFC00#16 ∧
  decode 0b0100000111000000#16 = .jsrr 7 ∧
  decode 0b1111000100100101#16 = .trap 0x25#8 ∧
  decode 0b1101111111111111#16 = .res ∧
  decode 0b1000101010111100#16 = .rti

/-- 30_encoding.md R99, R103: decoding the encoding of any instruction whose immediate fits its field gives the
instruction back, every operand included. -/
def Obligations.DecodeOfEncode : Prop := ∀ i : Instr, i.wf = true → decode (encode i) = i

/-- R94, R103: every word decodes to an instruction whose immediate or offset lies in its field's range. -/
def Obligations.DecodedInstructionFits : Prop := ∀ w, (decode w).wf = true

/-- R100: two words decode alike exactly when they differ only in bits that no field of the form covers. That such bits
are ignored is the spec's own decision D4 (notes/assumptions/4.md). -/
def Obligations.DecodingIgnoresUncoveredBitsOnly : Prop :=
  ∀ w w' : Word, decode w = decode w' ↔ (w ^^^ w') &&& ~~~(decode w).ignored = 0x0000#16

/-- spec/opcode_table.json: every word matches exactly one row of the table, the row of the instruction it decodes to. -/
def Obligations.ExactlyOneTableRowMatches : Prop :=
  ∀ w, (decode w).row ∈ opcodeRows ∧ ∀ row ∈ opcodeRows, (rowMatches row w = true ↔ row = (decode w).row)

/-! ### The run loop -/

/-- 40_cycle.md R131, R132: a step of a running state fetches the word at pc, advances pc modulo 65536 and runs the
instruction the word decodes to. -/
def Obligations.StepRunsTheDecodedInstruction : Prop :=
  ∀ (s : State) (i : Instr), s.status = .running → decode (s.mem.read s.pc) = i →
    step s = exec i { s with pc := s.pc + 1#16 }

/-- 10_state.md R39, 60_exceptions.md R280: a run that is halted or faulted takes no further step. That the model
answers the fault `runEnded` there is notes/assumptions/15.md. -/
def Obligations.EndedRunTakesNoStep : Prop :=
  ∀ s : State, s.status ≠ .running → (∀ t, step s ≠ .next t) ∧ step s = .fault .runEnded

/-- 70_reset_and_hazards.md R305: with zero in every cell every step is a no-op branch, pc runs round the address space
and the run never ends. That word 0 is a BR is D1 (notes/assumptions/1.md). -/
def Obligations.ZeroMemoryRunsForever : Prop :=
  ∀ s : State, s.status = .running → (∀ a, s.mem.read a = 0x0000#16) →
    ∀ k, Host.Core.run core k s = .next { s with pc := s.pc + BitVec.ofNat 16 k }

/-- 20_memory.md R62, 40_cycle.md R135, 43_control.md R200: every instruction in every state answers a next state, a hold
of GETC or IN included, but for PUTS and PUTSP over a string without terminator. That a hold is a next state is the
model's choice (notes/assumptions/13.md), as is the fault that stands for Diverge (14.md). -/
def Obligations.InstructionsAlwaysComplete : Prop :=
  ∀ (i : Instr) (s : State), (∃ t, exec i s = .next t) ∨
    (exec i s = .fault .stringDiverges ∧ (i = .trap 0x22#8 ∨ i = .trap 0x24#8))

/-! ### Flags -/

/-- 40_cycle.md R137: `cc` gives Z for 0, N for bit 15 set, P otherwise, no other flag would do, and `setcc` writes it to
COND. -/
def Obligations.ConditionCodeDerivation : Prop :=
  ∀ (v : Word) (c : Cond) (s : State), (FlagOf v c ↔ c = cc v) ∧ (s.setCC v).cond = cc v

/-- 10_state.md R38: ADD, AND, NOT, LD, LDI, LDR and LEA set COND from the register they write, every other instruction
leaves it alone, and BR is the only one whose outcome depends on it. -/
def Obligations.CondWritersAndReaders : Prop :=
  (∀ (i : Instr) (s t : State), exec i s = .next t →
    match flagWriter i with
    | some dr => FlagOf (t.reg dr) t.cond
    | none => t.cond = s.cond) ∧
  (∀ (i : Instr) (s : State) (c : Cond), (∀ n z p off, i ≠ .br n z p off) →
    (∀ t, exec i s = .next t →
      exec i { s with cond := c } = .next (if (flagWriter i).isSome then t else { t with cond := c })) ∧
    (∀ f, exec i s = .fault f → exec i { s with cond := c } = .fault f))

/-! ### Operate instructions -/

/-- 41_operate.md R151: ADD writes the sum modulo 65536, AND the bitwise AND, NOT 65535 minus the operand, in both operand
forms of ADD and AND; COND becomes the result's flag and nothing else changes. -/
def Obligations.OperateInstructionsComputeTheAlu : Prop :=
  ∀ (dr sr1 sr2 : Reg) (imm : Word) (s : State),
    (∃ t, exec (.addReg dr sr1 sr2) s = .next t ∧
      WritesResult dr (BitVec.ofNat 16 (((s.reg sr1).toNat + (s.reg sr2).toNat) % 65536)) s t) ∧
    (∃ t, exec (.addImm dr sr1 imm) s = .next t ∧
      WritesResult dr (BitVec.ofNat 16 (((s.reg sr1).toNat + imm.toNat) % 65536)) s t) ∧
    (∃ t, exec (.andReg dr sr1 sr2) s = .next t ∧
      WritesResult dr (BitVec.ofNat 16 ((s.reg sr1).toNat &&& (s.reg sr2).toNat)) s t) ∧
    (∃ t, exec (.andImm dr sr1 imm) s = .next t ∧
      WritesResult dr (BitVec.ofNat 16 ((s.reg sr1).toNat &&& imm.toNat)) s t) ∧
    (∃ t, exec (.not dr sr1) s = .next t ∧
      WritesResult dr (BitVec.ofNat 16 (65535 - (s.reg sr1).toNat)) s t)

/-! ### Loads and stores -/

/-- 42_load_store.md R171 to R174: LD, LDI, LDR load the word at their effective address, LEA gives the address itself;
COND becomes the value's flag and nothing else changes. -/
def Obligations.LoadsWriteTheAddressedWord : Prop :=
  ∀ (dr baseR : Reg) (off : Word) (s : State),
    (∃ t, exec (.ld dr off) s = .next t ∧ WritesResult dr (s.mem.read (s.pc + off)) s t) ∧
    (∃ t, exec (.ldi dr off) s = .next t ∧ WritesResult dr (s.mem.read (s.mem.read (s.pc + off))) s t) ∧
    (∃ t, exec (.ldr dr baseR off) s = .next t ∧ WritesResult dr (s.mem.read (s.reg baseR + off)) s t) ∧
    (∃ t, exec (.lea dr off) s = .next t ∧ WritesResult dr (s.pc + off) s t)

/-- 42_load_store.md R175 to R177: ST, STI, STR write the register's value to the word at their effective address and
change nothing else, no flag included. -/
def Obligations.StoresWriteTheAddressedWord : Prop :=
  ∀ (sr baseR : Reg) (off : Word) (s : State),
    (∃ t, exec (.st sr off) s = .next t ∧ WritesMemory (s.pc + off) (s.reg sr) s t) ∧
    (∃ t, exec (.sti sr off) s = .next t ∧ WritesMemory (s.mem.read (s.pc + off)) (s.reg sr) s t) ∧
    (∃ t, exec (.str sr baseR off) s = .next t ∧ WritesMemory (s.reg baseR + off) (s.reg sr) s t)

/-- 20_memory.md R64: whatever the instruction, every word outside the address it stores to reads as before; an
instruction that stores nothing leaves all of memory as it was. -/
def Obligations.OnlyTheStoredWordChanges : Prop :=
  ∀ (i : Instr) (s t : State) (a : Word), exec i s = .next t → storeAddr i s ≠ some a →
    t.mem.read a = s.mem.read a

/-- 70_reset_and_hazards.md R307: a store is seen by every later fetch of its address, and a store to the executing
instruction's own address affects later fetches only. -/
def Obligations.StoresAreSeenByLaterFetches : Prop :=
  (∀ (sr baseR : Reg) (off a : Word) (i : Instr) (s t u : State),
    (i = .st sr off ∨ i = .sti sr off ∨ i = .str sr baseR off) → storeAddr i s = some a → exec i s = .next t →
    u.status = .running → u.pc = a → u.mem.read a = t.mem.read a →
    step u = exec (decode (s.reg sr)) { u with pc := a + 1#16 }) ∧
  (∀ (sr baseR : Reg) (off : Word) (i : Instr) (s : State),
    (i = .st sr off ∨ i = .sti sr off ∨ i = .str sr baseR off) → s.status = .running →
    decode (s.mem.read s.pc) = i → storeAddr i { s with pc := s.pc + 1#16 } = some s.pc →
    ∃ t, step s = .next t ∧ t.mem.read s.pc = s.reg sr ∧ t.pc = s.pc + 1#16 ∧ t.status = .running)

/-- 90_conflicts.md C3: STI then LDI through the same pointer cell p gives the stored value back where the target is not p
or the value is p; where the target is p, the LDI reads the cell the stored value names. -/
def Obligations.IndirectRoundTrip : Prop :=
  ∀ (sr dr : Reg) (off off' p : Word) (s t u : State), s.pc + off = p → exec (.sti sr off) s = .next t →
    (∀ a, u.mem.read a = t.mem.read a) → u.pc + off' = p →
    ∃ w, exec (.ldi dr off') u = .next w ∧
      (s.mem.read p ≠ p ∨ s.reg sr = p → w.reg dr = s.reg sr) ∧
      (s.mem.read p = p → w.reg dr = t.mem.read (s.reg sr))

/-! ### Control transfer -/

/-- 43_control.md R201: BR goes to pc + offset when a condmask bit and the flag it stands for are both set, and stays at
the next instruction otherwise; nothing else changes. The condmask's bit order is D3 (notes/assumptions/3.md). -/
def Obligations.BranchTakenOnMatchingFlag : Prop :=
  ∀ (n z p : Bool) (off : Word) (s : State), ∃ t, exec (.br n z p off) s = .next t ∧
    ((n = true ∧ s.cond = .n) ∨ (z = true ∧ s.cond = .z) ∨ (p = true ∧ s.cond = .p) → t.pc = s.pc + off) ∧
    (¬((n = true ∧ s.cond = .n) ∨ (z = true ∧ s.cond = .z) ∨ (p = true ∧ s.cond = .p)) → t.pc = s.pc) ∧
    SameRegsBut [] s t ∧ t.cond = s.cond ∧ SameMemory s t ∧ SameRun s t

/-- 43_control.md R202 to R204: JMP goes to the register's value; JSR and JSRR also put the post-fetch pc in R7, and the
target is read before R7 is written (JSRR R7: the spec's decision D6, notes/assumptions/6.md). -/
def Obligations.JumpsAndCallsGoToTheirTarget : Prop :=
  ∀ (baseR : Reg) (off : Word) (s : State),
    (∃ t, exec (.jmp baseR) s = .next t ∧ t.pc = s.reg baseR ∧ SameRegsBut [] s t ∧
      t.cond = s.cond ∧ SameMemory s t ∧ SameRun s t) ∧
    (∃ t, exec (.jsr off) s = .next t ∧ t.pc = s.pc + off ∧ t.reg 7 = s.pc ∧ SameRegsBut [7] s t ∧
      t.cond = s.cond ∧ SameMemory s t ∧ SameRun s t) ∧
    (∃ t, exec (.jsrr baseR) s = .next t ∧ t.pc = s.reg baseR ∧ t.reg 7 = s.pc ∧ SameRegsBut [7] s t ∧
      t.cond = s.cond ∧ SameMemory s t ∧ SameRun s t)

/-- 10_state.md R36, 40_cycle.md R133: only BR, JMP, JSR and JSRR move pc beyond the fetch increment. TRAP does not (the
spec's decision D7, notes/assumptions/7.md); a hold takes the increment back (R134, notes/assumptions/13.md). -/
def Obligations.OnlyControlTransfersMovePc : Prop :=
  ∀ (i : Instr) (s t : State), exec i s = .next t → t.pc ≠ s.pc →
    (∃ n z p off, i = .br n z p off) ∨ (∃ baseR, i = .jmp baseR) ∨ (∃ off, i = .jsr off) ∨ (∃ baseR, i = .jsrr baseR) ∨
    ((i = .trap 0x20#8 ∨ i = .trap 0x23#8) ∧ s.answer = .notYet ∧ t.pc = s.pc - 1#16)

/-- 10_state.md R32: JSR, JSRR and every TRAP that is not a hold put the post-fetch pc in R7, and besides them only an
instruction with DR = 7 changes it. -/
def Obligations.LinkRegisterWriters : Prop :=
  ∀ (i : Instr) (s t : State), exec i s = .next t →
    ((∃ off, i = .jsr off) ∨ (∃ baseR, i = .jsrr baseR) ∨ (∃ v, i = .trap v ∧ s.answer ≠ .notYet) ∨
      (∃ v, i = .trap v ∧ v ≠ 0x20#8 ∧ v ≠ 0x23#8) → t.reg 7 = s.pc) ∧
    (t.reg 7 ≠ s.reg 7 →
      flagWriter i = some 7 ∨ (∃ off, i = .jsr off) ∨ (∃ baseR, i = .jsrr baseR) ∨ (∃ v, i = .trap v))

/-- 10_state.md R43: an instruction changes at most one general register, but for TRAP GETC and TRAP IN, which may change
R7 and R0. -/
def Obligations.AtMostOneRegisterChanges : Prop :=
  ∀ (i : Instr) (s t : State) (r r' : Reg), exec i s = .next t → r < r' →
    t.reg r ≠ s.reg r → t.reg r' ≠ s.reg r' → r = 0 ∧ r' = 7 ∧ (i = .trap 0x20#8 ∨ i = .trap 0x23#8)

/-! ### Traps -/

/-- 44_trap.md R226: GETC puts the device's next byte, zero-extended, in R0 and echoes nothing; on a failed read it takes
InputDeviceError with R0 unwritten and R7 written (R270). That a character is one byte is the spec's decision D9
(notes/assumptions/9.md), that pc stays after the TRAP D7 (7.md), what the fault records D22 (25.md). -/
def Obligations.GetcReadsOneCharacter : Prop :=
  ∀ s : State,
    (∀ c, s.answer = .byte c → ∃ t, exec (.trap 0x20#8) s = .next t ∧
      (t.reg 0).toNat = c.toNat ∧ t.reg 7 = s.pc ∧ t.pc = s.pc ∧ SameRegsBut [0, 7] s t ∧ t.cond = s.cond ∧
      SameMemory s t ∧ t.out = s.out ∧ t.status = s.status ∧ t.input = s.input.next) ∧
    (s.answer = .failure → ∃ t, exec (.trap 0x20#8) s = .next t ∧
      t.status = .faulted .inputDeviceError (s.pc - 1#16) (s.mem.read (s.pc - 1#16)) ∧
      t.reg 0 = s.reg 0 ∧ t.reg 7 = s.pc ∧ t.pc = s.pc ∧ SameRegsBut [7] s t ∧ t.cond = s.cond ∧
      SameMemory s t ∧ t.out = s.out ∧ t.input = s.input.next)

/-- 44_trap.md R227: OUT writes the low 8 bits of R0, whatever its high bits. -/
def Obligations.OutWritesTheLowByte : Prop :=
  ∀ s : State, ∃ t, exec (.trap 0x21#8) s = .next t ∧
    t.out = s.out ++ [BitVec.ofNat 8 ((s.reg 0).toNat % 256)] ∧ t.reg 7 = s.pc ∧ SameRegsBut [7] s t ∧
    t.cond = s.cond ∧ SameMemory s t ∧ t.status = s.status ∧ t.input = s.input

/-- 44_trap.md R228: PUTS writes the low byte of each word from the one R0 names, wrapping at the top of memory, up to the
first zero word, which it does not write, and changes nothing else but R7; where no cell is zero it has no next state
(the outcome Diverge, notes/assumptions/14.md). That pc stays after the TRAP is the spec's decision D7 (7.md). -/
def Obligations.PutsWritesUpToTheZeroWord : Prop :=
  ∀ s : State,
    (∀ n, n < 65536 → (∀ k, k < n → s.mem.read (s.reg 0 + BitVec.ofNat 16 k) ≠ 0x0000#16) →
      s.mem.read (s.reg 0 + BitVec.ofNat 16 n) = 0x0000#16 →
      ∃ t, exec (.trap 0x22#8) s = .next t ∧
        t.out = s.out ++ (List.range n).map (fun k => (s.mem.read (s.reg 0 + BitVec.ofNat 16 k)).setWidth 8) ∧
        t.reg 7 = s.pc ∧ t.pc = s.pc ∧ SameRegsBut [7] s t ∧ t.cond = s.cond ∧ SameMemory s t ∧
        t.status = s.status ∧ t.input = s.input) ∧
    ((∀ a, s.mem.read a ≠ 0x0000#16) → ∀ t, exec (.trap 0x22#8) s ≠ .next t)

/-- 44_trap.md R229: IN writes the prompt, reads a byte, echoes it and puts it zero-extended in R0; on a failed read the
prompt is written, the echo is not, R0 is unchanged (R270). The prompt is the open IN_PROMPT (notes/assumptions/10.md); a
character is one byte by the spec's decision D9 (9.md), pc stays after the TRAP by D7 (7.md), what the fault records is
D22 (25.md). -/
def Obligations.InPromptsReadsAndEchoes : Prop :=
  ∀ s : State,
    (∀ c, s.answer = .byte c → ∃ t, exec (.trap 0x23#8) s = .next t ∧
      t.out = s.out ++ Config.inPrompt ++ [c] ∧ (t.reg 0).toNat = c.toNat ∧ t.reg 7 = s.pc ∧ t.pc = s.pc ∧
      SameRegsBut [0, 7] s t ∧ t.cond = s.cond ∧ SameMemory s t ∧ t.status = s.status ∧ t.input = s.input.next) ∧
    (s.answer = .failure → ∃ t, exec (.trap 0x23#8) s = .next t ∧
      t.status = .faulted .inputDeviceError (s.pc - 1#16) (s.mem.read (s.pc - 1#16)) ∧
      t.out = s.out ++ Config.inPrompt ∧ t.reg 0 = s.reg 0 ∧ t.reg 7 = s.pc ∧ t.pc = s.pc ∧ SameRegsBut [7] s t ∧
      t.cond = s.cond ∧ SameMemory s t ∧ t.input = s.input.next)

/-- 44_trap.md R231: PUTSP writes two characters a word, low byte first, up to the first zero byte, low or high. That the
first zero byte ends the string is the spec's decision D14 (notes/assumptions/19.md), that pc stays after the TRAP D7
(7.md). -/
def Obligations.PutspWritesUpToTheZeroByte : Prop :=
  ∀ (s : State) (n : Nat) (lo hi : Nat → Byte),
    (∀ k, lo k = (s.mem.read (s.reg 0 + BitVec.ofNat 16 k)).setWidth 8) →
    (∀ k, hi k = (s.mem.read (s.reg 0 + BitVec.ofNat 16 k) >>> 8).setWidth 8) →
    n < 65536 → (∀ k, k < n → lo k ≠ 0x00#8 ∧ hi k ≠ 0x00#8) → lo n = 0x00#8 ∨ hi n = 0x00#8 →
    ∃ t, exec (.trap 0x24#8) s = .next t ∧
      t.out = s.out ++ (List.range n).flatMap (fun k => [lo k, hi k]) ++ (if lo n = 0x00#8 then [] else [lo n]) ∧
      t.reg 7 = s.pc ∧ t.pc = s.pc ∧ SameRegsBut [7] s t ∧ t.cond = s.cond ∧ SameMemory s t ∧ t.status = s.status ∧
      t.input = s.input

/-- 44_trap.md R232: HALT writes the banner, ends the run, and leaves R7 and pc at the next instruction; the host's exit
code is 0. The banner is the open HALT_BANNER (notes/assumptions/10.md). -/
def Obligations.HaltEndsTheRun : Prop :=
  ∀ s : State, ∃ t, exec (.trap 0x25#8) s = .next t ∧ t.status = .halted ∧ exitCode t.status = some 0 ∧
    t.out = s.out ++ Config.haltBanner ∧ t.reg 7 = s.pc ∧ t.pc = s.pc ∧ SameRegsBut [7] s t ∧ t.cond = s.cond ∧
    SameMemory s t ∧ t.input = s.input

/-- 44_trap.md R230: PUTS has no next state exactly when no cell of memory is zero, PUTSP exactly when no cell has a zero
byte. The answer `stringDiverges` stands for the outcome Diverge (notes/assumptions/14.md). -/
def Obligations.StringsDivergeWithoutTerminator : Prop :=
  ∀ s : State,
    (exec (.trap 0x22#8) s = .fault .stringDiverges ↔ ∀ a, s.mem.read a ≠ 0x0000#16) ∧
    (exec (.trap 0x24#8) s = .fault .stringDiverges ↔
      ∀ a, (s.mem.read a).toNat % 256 ≠ 0 ∧ (s.mem.read a).toNat / 256 ≠ 0)

/-- 44_trap.md R223: a vector outside 0x20..0x25 takes the fatal fault UnknownTrapVector after R7 is written, and changes
nothing else. The case is the spec's decision D8 (notes/assumptions/8.md). -/
def Obligations.UnknownVectorFaultsAfterLink : Prop :=
  ∀ (v : BitVec 8) (s : State), v.toNat < 0x20 ∨ 0x25 < v.toNat → ∃ t, exec (.trap v) s = .next t ∧
    t.status = .faulted .unknownTrapVector (s.pc - 1#16) (s.mem.read (s.pc - 1#16)) ∧ t.reg 7 = s.pc ∧ t.pc = s.pc ∧
    SameRegsBut [7] s t ∧ t.cond = s.cond ∧ SameMemory s t ∧ t.out = s.out ∧ t.input = s.input

/-- 44_trap.md R233, R220: no TRAP changes memory, COND or a register other than R7 and, for GETC and IN, R0; pc stays
after the TRAP, or before it in a hold (decisions D7 and D20; notes/assumptions/7.md, 13.md). -/
def Obligations.TrapFrame : Prop :=
  ∀ (v : BitVec 8) (s t : State), exec (.trap v) s = .next t →
    t.cond = s.cond ∧ SameMemory s t ∧ SameRegsBut [0, 7] s t ∧
    (t.reg 0 ≠ s.reg 0 → v = 0x20#8 ∨ v = 0x23#8) ∧
    (t.pc = s.pc ∨ (t.pc = s.pc - 1#16 ∧ SameRegsBut [] s t ∧ t.out = s.out ∧ t.status = s.status))

/-- 20_memory.md R69: the trap-vector table is not in memory: the spec's decision D7 (notes/assumptions/7.md). A TRAP other
than PUTS and PUTSP has the same effect whatever memory holds; where it faults, cause and address are the same too, and
the recorded word alone may be the other memory's, the word at that address. -/
def Obligations.TrapsDoNotReadATableInMemory : Prop :=
  ∀ (v : BitVec 8) (s t : State) (m : Memory), v ≠ 0x22#8 → v ≠ 0x24#8 → exec (.trap v) s = .next t →
    ∃ t', exec (.trap v) { s with mem := m } = .next t' ∧ t'.mem = m ∧ (∀ r, t'.reg r = t.reg r) ∧ t'.pc = t.pc ∧
      t'.cond = t.cond ∧ t'.out = t.out ∧ t'.input = t.input ∧
      ((∀ c a w, t.status ≠ .faulted c a w) → t'.status = t.status) ∧
      (∀ c a w, t.status = .faulted c a w → t'.status = .faulted c a w ∨ t'.status = .faulted c a (m.read a))

/-- 40_cycle.md R134: while the input device has no answer, a GETC or IN holds: the step leaves the machine state record
of 10_state.md R44 as it was, the fetch included. That a hold is a next state is notes/assumptions/13.md; the device
beside the record, which has been asked once more, is 12.md. -/
def Obligations.InputHoldChangesNothing : Prop :=
  ∀ s : State, s.status = .running →
    (decode (s.mem.read s.pc) = .trap 0x20#8 ∨ decode (s.mem.read s.pc) = .trap 0x23#8) → s.answer = .notYet →
    ∃ t, step s = .next t ∧ t.toCoreState = s.toCoreState ∧ t.input = s.input.next

/-- 10_state.md R40, 44_trap.md R224: `out` only grows, a step takes at most one answer from the input device, and both
happen only in a TRAP. -/
def Obligations.DevicesMoveOnlyInTraps : Prop :=
  ∀ s t : State, step s = .next t →
    (∃ bytes, t.out = s.out ++ bytes) ∧ (t.input = s.input ∨ t.input = s.input.next) ∧
    (t.out ≠ s.out ∨ t.input ≠ s.input → ∃ v, decode (s.mem.read s.pc) = .trap v)

/-! ### Faults and the end of a run -/

/-- 45_reserved.md R260, R261: RES and RTI take their fatal fault, recording the instruction's address and word, and write
nothing beyond the fetch's pc; every word of opcode 0xD or 0x8 does so, whatever its low 12 bits. The opcode numbers
are D1 (notes/assumptions/1.md). -/
def Obligations.ReservedOpcodesFault : Prop :=
  (∀ s : State, ∃ t, exec .res s = .next t ∧
    t = { s with status := .faulted .reservedOpcode (s.pc - 1#16) (s.mem.read (s.pc - 1#16)) }) ∧
  (∀ s : State, ∃ t, exec .rti s = .next t ∧
    t = { s with status := .faulted .rtiUnimplemented (s.pc - 1#16) (s.mem.read (s.pc - 1#16)) }) ∧
  (∀ s : State, s.status = .running →
    ((s.mem.read s.pc).toNat / 4096 = 0xD → step s = .next
      { s with pc := s.pc + 1#16, status := .faulted .reservedOpcode s.pc (s.mem.read s.pc) }) ∧
    ((s.mem.read s.pc).toNat / 4096 = 0x8 → step s = .next
      { s with pc := s.pc + 1#16, status := .faulted .rtiUnimplemented s.pc (s.mem.read s.pc) }))

/-- 60_exceptions.md R271: which instruction takes which fault, and that no other can fault. The codes are D24
and what InputDeviceError records is D22 (notes/assumptions/25.md), opcode numbers and unknown vectors D1 and D8 (1.md,
8.md). -/
def Obligations.FaultTable : Prop :=
  (∀ (s : State) (cause : FaultCause) (a w : Word), s.status = .running →
    ((∃ t, step s = .next t ∧ t.status = .faulted cause a w) ↔
      a = s.pc ∧ w = s.mem.read s.pc ∧
      match cause with
      | .reservedOpcode => w.toNat / 4096 = 0xD
      | .rtiUnimplemented => w.toNat / 4096 = 0x8
      | .unknownTrapVector => w.toNat / 4096 = 0xF ∧ (w.toNat % 256 < 0x20 ∨ 0x25 < w.toNat % 256)
      | .inputDeviceError => w.toNat / 4096 = 0xF ∧ (w.toNat % 256 = 0x20 ∨ w.toNat % 256 = 0x23) ∧
          s.answer = .failure)) ∧
  FaultCause.reservedOpcode.code = 1 ∧ FaultCause.rtiUnimplemented.code = 2 ∧
  FaultCause.unknownTrapVector.code = 3 ∧ FaultCause.inputDeviceError.code = 4

/-- 60_exceptions.md R270: faults are precise. A faulting step leaves pc after the instruction and everything else as it
was, but for R7 of a TRAP, the prompt of an IN, and the answer the device gave. -/
def Obligations.FaultsArePrecise : Prop :=
  ∀ (s t : State) (cause : FaultCause) (a w : Word), step s = .next t → t.status = .faulted cause a w →
    t.pc = s.pc + 1#16 ∧ t.cond = s.cond ∧ SameMemory s t ∧ SameRegsBut [7] s t ∧
    (cause = .reservedOpcode ∨ cause = .rtiUnimplemented → t.reg 7 = s.reg 7) ∧
    (cause = .unknownTrapVector ∨ cause = .inputDeviceError → t.reg 7 = s.pc + 1#16) ∧
    (t.out = s.out ∨ (cause = .inputDeviceError ∧ decode (s.mem.read s.pc) = .trap 0x23#8 ∧
      t.out = s.out ++ Config.inPrompt))

/-- 60_exceptions.md R280, 44_trap.md R232: HALT, and only HALT, halts a running machine. -/
def Obligations.OnlyHaltHalts : Prop :=
  ∀ s : State, (∃ t, step s = .next t ∧ t.status = .halted) ↔
    s.status = .running ∧ decode (s.mem.read s.pc) = .trap 0x25#8

/-! ### The invariant of a run -/

/-- Every step keeps the invariant: memory stays in canonical form (20_memory.md R60; its representation is
notes/assumptions/11.md), and an ended run's status tells the truth about its end (60_exceptions.md R270, R271;
44_trap.md R220, R232). -/
def Obligations.StepKeepsInvariant : Prop := ∀ s t : State, Inv s → step s = .next t → Inv t

/-- The invariant holds at reset and at the launch of any memory in canonical form, whatever is known of the input. The
canonical form, all that the invariant asks of a running state, is the model's choice (notes/assumptions/11.md). -/
def Obligations.LaunchMeetsInvariant : Prop :=
  Inv State.reset ∧ ∀ m known, m.wf = true → Inv (State.launch m known)

/-! ### The loader -/

/-- 70_reset_and_hazards.md R302: an image file's big-endian words are stored contiguously from its origin and nothing else
changes; a file that fails to parse is skipped. What happens past 0xFFFF is left open (notes/assumptions/18.md). -/
def Obligations.LoaderStoresContiguously : Prop :=
  (∀ (m : Memory) (origin : Word) (words : List Word), origin.toNat + words.length ≤ 65536 →
    ∃ m', loadImage m ((origin :: words).flatMap wordBytes) = some m' ∧
      (∀ k (h : k < words.length), m'.read (origin + BitVec.ofNat 16 k) = words[k]) ∧
      (∀ a : Word, a.toNat < origin.toNat ∨ origin.toNat + words.length ≤ a.toNat → m'.read a = m.read a)) ∧
  (∀ (m : Memory) (file : List Byte), file.length % 2 = 1 ∨ file = [] → loadImage m file = some m)

/-! ### The ports of the decoder and the trap-vector ROM -/

/-- 30_encoding.md R93, R104: the outputs of the Decoder block for every word, each as the field's number: opcode and the
raw 12 low bits, and the eleven buses. That the block has these ports is the spec's decision D18, where the mode bits
and the condmask lie D2 and D3 (notes/assumptions/2.md, 3.md). -/
def Obligations.DecoderOutputsAreTheFields : Prop :=
  ∀ w : Word,
    (opcode w).toNat = w.toNat / 4096 ∧ (restBits w).toNat = w.toNat % 4096 ∧
    (fieldDr w).val = w.toNat / 512 % 8 ∧ (fieldSr1 w).val = w.toNat / 64 % 8 ∧ (fieldSr2 w).val = w.toNat % 8 ∧
    (immMode w = true ↔ w.toNat / 32 % 2 = 1) ∧ (jsrMode w = true ↔ w.toNat / 2048 % 2 = 1) ∧
    (condmask w).toNat = w.toNat / 512 % 8 ∧ (trapvect8 w).toNat = w.toNat % 256 ∧
    (imm5 w).toInt = (w.toNat % 32 : Nat) - (if w.toNat % 32 < 16 then 0 else 32) ∧
    (offset6 w).toInt = (w.toNat % 64 : Nat) - (if w.toNat % 64 < 32 then 0 else 64) ∧
    (pcoffset9 w).toInt = (w.toNat % 512 : Nat) - (if w.toNat % 512 < 256 then 0 else 512) ∧
    (pcoffset11 w).toInt = (w.toNat % 2048 : Nat) - (if w.toNat % 2048 < 1024 then 0 else 2048)

/-- 44_trap.md R222: the trap-vector ROM is valid exactly for 0x20 to 0x25 and gives routine v - 0x20 there, and no routine
elsewhere. Its ports are the spec's decision D18, its place outside memory D7 (notes/assumptions/7.md). -/
def Obligations.TrapRomNumbersSixRoutines : Prop :=
  ∀ v : BitVec 8,
    (romValid v = true ↔ 0x20 ≤ v.toNat ∧ v.toNat ≤ 0x25) ∧
    (romValid v = true → romRoutine v = some (BitVec.ofNat 3 (v.toNat - 0x20))) ∧
    (romValid v = false → romRoutine v = none)
end

