-- ==== Sys2Proof/Laws/Decode.lean ====
section
/-! SUPPORT. The decoder's arms by opcode value, what the extractors give on an encoded word, and the two directions of
sign extension. -/

namespace Sys2Proof

/-! ### The arm an opcode value selects (30_encoding.md R95, R103) -/

/-- The four bits the decoder looks at are the opcode field's. -/
theorem opcode_bits {w : Word} {k : BitVec 4} (h : opcode w = k) :
    w.getLsbD 15 = k.getLsbD 3 ∧ w.getLsbD 14 = k.getLsbD 2 ∧ w.getLsbD 13 = k.getLsbD 1 ∧ w.getLsbD 12 = k.getLsbD 0 := by
  subst h
  simp [opcode]

theorem decode_br {w : Word} (h : opcode w = 0x0#4) : decode w = .br (w.getLsbD 11) (w.getLsbD 10) (w.getLsbD 9) (pcoffset9 w) := by
  obtain ⟨h15, h14, h13, h12⟩ := opcode_bits h
  rw [decode, h15, h14, h13, h12]
  rfl

theorem decode_addReg {w : Word} (h : opcode w = 0x1#4) (hm : immMode w = false) : decode w = .addReg (fieldDr w) (fieldSr1 w) (fieldSr2 w) := by
  obtain ⟨h15, h14, h13, h12⟩ := opcode_bits h
  rw [decode, h15, h14, h13, h12, hm]
  rfl

theorem decode_addImm {w : Word} (h : opcode w = 0x1#4) (hm : immMode w = true) : decode w = .addImm (fieldDr w) (fieldSr1 w) (imm5 w) := by
  obtain ⟨h15, h14, h13, h12⟩ := opcode_bits h
  rw [decode, h15, h14, h13, h12, hm]
  rfl

theorem decode_ld {w : Word} (h : opcode w = 0x2#4) : decode w = .ld (fieldDr w) (pcoffset9 w) := by
  obtain ⟨h15, h14, h13, h12⟩ := opcode_bits h
  rw [decode, h15, h14, h13, h12]
  rfl

theorem decode_st {w : Word} (h : opcode w = 0x3#4) : decode w = .st (fieldDr w) (pcoffset9 w) := by
  obtain ⟨h15, h14, h13, h12⟩ := opcode_bits h
  rw [decode, h15, h14, h13, h12]
  rfl

theorem decode_jsr {w : Word} (h : opcode w = 0x4#4) (hm : jsrMode w = true) : decode w = .jsr (pcoffset11 w) := by
  obtain ⟨h15, h14, h13, h12⟩ := opcode_bits h
  rw [decode, h15, h14, h13, h12, hm]
  rfl

theorem decode_jsrr {w : Word} (h : opcode w = 0x4#4) (hm : jsrMode w = false) : decode w = .jsrr (fieldSr1 w) := by
  obtain ⟨h15, h14, h13, h12⟩ := opcode_bits h
  rw [decode, h15, h14, h13, h12, hm]
  rfl

theorem decode_andReg {w : Word} (h : opcode w = 0x5#4) (hm : immMode w = false) : decode w = .andReg (fieldDr w) (fieldSr1 w) (fieldSr2 w) := by
  obtain ⟨h15, h14, h13, h12⟩ := opcode_bits h
  rw [decode, h15, h14, h13, h12, hm]
  rfl

theorem decode_andImm {w : Word} (h : opcode w = 0x5#4) (hm : immMode w = true) : decode w = .andImm (fieldDr w) (fieldSr1 w) (imm5 w) := by
  obtain ⟨h15, h14, h13, h12⟩ := opcode_bits h
  rw [decode, h15, h14, h13, h12, hm]
  rfl

theorem decode_ldr {w : Word} (h : opcode w = 0x6#4) : decode w = .ldr (fieldDr w) (fieldSr1 w) (offset6 w) := by
  obtain ⟨h15, h14, h13, h12⟩ := opcode_bits h
  rw [decode, h15, h14, h13, h12]
  rfl

theorem decode_str {w : Word} (h : opcode w = 0x7#4) : decode w = .str (fieldDr w) (fieldSr1 w) (offset6 w) := by
  obtain ⟨h15, h14, h13, h12⟩ := opcode_bits h
  rw [decode, h15, h14, h13, h12]
  rfl

theorem decode_rti {w : Word} (h : opcode w = 0x8#4) : decode w = .rti := by
  obtain ⟨h15, h14, h13, h12⟩ := opcode_bits h
  rw [decode, h15, h14, h13, h12]
  rfl

theorem decode_not {w : Word} (h : opcode w = 0x9#4) : decode w = .not (fieldDr w) (fieldSr1 w) := by
  obtain ⟨h15, h14, h13, h12⟩ := opcode_bits h
  rw [decode, h15, h14, h13, h12]
  rfl

theorem decode_ldi {w : Word} (h : opcode w = 0xA#4) : decode w = .ldi (fieldDr w) (pcoffset9 w) := by
  obtain ⟨h15, h14, h13, h12⟩ := opcode_bits h
  rw [decode, h15, h14, h13, h12]
  rfl

theorem decode_sti {w : Word} (h : opcode w = 0xB#4) : decode w = .sti (fieldDr w) (pcoffset9 w) := by
  obtain ⟨h15, h14, h13, h12⟩ := opcode_bits h
  rw [decode, h15, h14, h13, h12]
  rfl

theorem decode_jmp {w : Word} (h : opcode w = 0xC#4) : decode w = .jmp (fieldSr1 w) := by
  obtain ⟨h15, h14, h13, h12⟩ := opcode_bits h
  rw [decode, h15, h14, h13, h12]
  rfl

theorem decode_res {w : Word} (h : opcode w = 0xD#4) : decode w = .res := by
  obtain ⟨h15, h14, h13, h12⟩ := opcode_bits h
  rw [decode, h15, h14, h13, h12]
  rfl

theorem decode_lea {w : Word} (h : opcode w = 0xE#4) : decode w = .lea (fieldDr w) (pcoffset9 w) := by
  obtain ⟨h15, h14, h13, h12⟩ := opcode_bits h
  rw [decode, h15, h14, h13, h12]
  rfl

theorem decode_trap {w : Word} (h : opcode w = 0xF#4) : decode w = .trap (trapvect8 w) := by
  obtain ⟨h15, h14, h13, h12⟩ := opcode_bits h
  rw [decode, h15, h14, h13, h12]
  rfl

/-! ### The extractors as arithmetic on the word's value -/

theorem opcode_toNat (w : Word) : (opcode w).toNat = w.toNat / 4096 := by
  have := w.isLt
  simp only [opcode, BitVec.extractLsb'_toNat, Nat.shiftRight_eq_div_pow]
  omega

theorem restBits_toNat (w : Word) : (restBits w).toNat = w.toNat % 4096 := by
  simp [restBits]

theorem condmask_toNat (w : Word) : (condmask w).toNat = w.toNat / 512 % 8 := by
  simp [condmask, Nat.shiftRight_eq_div_pow]

theorem fieldDr_val (w : Word) : (fieldDr w).val = w.toNat / 512 % 8 := by
  simp [fieldDr, Nat.shiftRight_eq_div_pow]

theorem fieldSr1_val (w : Word) : (fieldSr1 w).val = w.toNat / 64 % 8 := by
  simp [fieldSr1, Nat.shiftRight_eq_div_pow]

theorem fieldSr2_val (w : Word) : (fieldSr2 w).val = w.toNat % 8 := by
  simp [fieldSr2]

theorem immMode_eq (w : Word) : immMode w = decide (w.toNat / 32 % 2 = 1) := by
  simp [immMode, -BitVec.getLsbD_eq_getElem, BitVec.getLsbD, Nat.testBit_eq_decide_div_mod_eq]

theorem jsrMode_eq (w : Word) : jsrMode w = decide (w.toNat / 2048 % 2 = 1) := by
  simp [jsrMode, -BitVec.getLsbD_eq_getElem, BitVec.getLsbD, Nat.testBit_eq_decide_div_mod_eq]

/-! ### Joined fields as arithmetic -/

theorem append_toNat {n m : Nat} (a : BitVec n) (b : BitVec m) : (a ++ b).toNat = a.toNat * 2 ^ m + b.toNat := by
  rw [BitVec.toNat_append, ← Nat.shiftLeft_add_eq_or_of_lt b.isLt, Nat.shiftLeft_eq]

theorem joinOp_toNat (op : BitVec 4) (rest : BitVec 12) : (joinOp op rest).toNat = op.toNat * 4096 + rest.toNat :=
  append_toNat op rest

theorem join3And9_toNat (hi : BitVec 3) (off : BitVec 9) : (join3And9 hi off).toNat = hi.toNat * 512 + off.toNat :=
  append_toNat hi off

theorem join3And3And6_toNat (hi mid : BitVec 3) (low : BitVec 6) :
    (join3And3And6 hi mid low).toNat = hi.toNat * 512 + (mid.toNat * 64 + low.toNat) :=
  (append_toNat hi _).trans (congrArg (hi.toNat * 512 + ·) (append_toNat mid low))

theorem lowReg_toNat (r : Reg) : (lowReg r).toNat = r.val :=
  (append_toNat 0b000#3 (regBits r)).trans (by simp [regBits])

theorem lowImm_toNat (imm : Word) : (lowImm imm).toNat = 32 + imm.toNat % 32 :=
  (append_toNat 0b1#1 (imm.setWidth 5)).trans (by simp)

theorem joinJsr_toNat (off : Word) : (joinJsr off).toNat = 2048 + off.toNat % 2048 :=
  (append_toNat 0b1#1 (off.setWidth 11)).trans (by simp)

theorem joinTrap_toNat (vect : BitVec 8) : (joinTrap vect).toNat = vect.toNat :=
  (append_toNat 0x0#4 vect).trans (by simp)

theorem regBits_toNat (r : Reg) : (regBits r).toNat = r.val := rfl

/-! ### The extractors on joined fields -/

@[simp] theorem opcode_joinOp (op : BitVec 4) (rest : BitVec 12) : opcode (joinOp op rest) = op := by
  apply BitVec.eq_of_toNat_eq
  rw [opcode_toNat, joinOp_toNat]
  omega

@[simp] theorem fieldDr_join9 (op : BitVec 4) (hi : BitVec 3) (off : BitVec 9) :
    fieldDr (joinOp op (join3And9 hi off)) = hi.toFin := by
  apply Fin.ext
  rw [fieldDr_val, joinOp_toNat, join3And9_toNat]
  change _ = hi.toNat
  omega

@[simp] theorem fieldDr_join6 (op : BitVec 4) (hi mid : BitVec 3) (low : BitVec 6) :
    fieldDr (joinOp op (join3And3And6 hi mid low)) = hi.toFin := by
  apply Fin.ext
  rw [fieldDr_val, joinOp_toNat, join3And3And6_toNat]
  change _ = hi.toNat
  omega

@[simp] theorem fieldSr1_join6 (op : BitVec 4) (hi mid : BitVec 3) (low : BitVec 6) :
    fieldSr1 (joinOp op (join3And3And6 hi mid low)) = mid.toFin := by
  apply Fin.ext
  rw [fieldSr1_val, joinOp_toNat, join3And3And6_toNat]
  change _ = mid.toNat
  omega

@[simp] theorem fieldSr2_lowReg (op : BitVec 4) (hi mid : BitVec 3) (r : Reg) :
    fieldSr2 (joinOp op (join3And3And6 hi mid (lowReg r))) = r := by
  apply Fin.ext
  rw [fieldSr2_val, joinOp_toNat, join3And3And6_toNat, lowReg_toNat]
  omega

@[simp] theorem immMode_lowReg (op : BitVec 4) (hi mid : BitVec 3) (r : Reg) :
    immMode (joinOp op (join3And3And6 hi mid (lowReg r))) = false := by
  rw [immMode_eq, joinOp_toNat, join3And3And6_toNat, lowReg_toNat, decide_eq_false_iff_not]
  omega

@[simp] theorem immMode_lowImm (op : BitVec 4) (hi mid : BitVec 3) (imm : Word) :
    immMode (joinOp op (join3And3And6 hi mid (lowImm imm))) = true := by
  rw [immMode_eq, joinOp_toNat, join3And3And6_toNat, lowImm_toNat, decide_eq_true_eq]
  omega

@[simp] theorem jsrMode_joinJsr (op : BitVec 4) (off : Word) : jsrMode (joinOp op (joinJsr off)) = true := by
  rw [jsrMode_eq, joinOp_toNat, joinJsr_toNat, decide_eq_true_eq]
  omega

@[simp] theorem jsrMode_jsrr (op : BitVec 4) (mid : BitVec 3) (low : BitVec 6) :
    jsrMode (joinOp op (join3And3And6 0b000#3 mid low)) = false := by
  rw [jsrMode_eq, joinOp_toNat, join3And3And6_toNat, decide_eq_false_iff_not]
  simp only [BitVec.toNat_ofNat]
  omega

@[simp] theorem trapvect8_joinTrap (op : BitVec 4) (vect : BitVec 8) : trapvect8 (joinOp op (joinTrap vect)) = vect := by
  apply BitVec.eq_of_toNat_eq
  simp only [trapvect8, BitVec.extractLsb'_toNat, joinOp_toNat, joinTrap_toNat, Nat.shiftRight_zero]
  omega

theorem low9_join9 (op : BitVec 4) (hi : BitVec 3) (off : BitVec 9) :
    (joinOp op (join3And9 hi off)).extractLsb' 0 9 = off := by
  apply BitVec.eq_of_toNat_eq
  simp only [BitVec.extractLsb'_toNat, joinOp_toNat, join3And9_toNat, Nat.shiftRight_zero]
  omega

theorem low6_join6 (op : BitVec 4) (hi mid : BitVec 3) (low : BitVec 6) :
    (joinOp op (join3And3And6 hi mid low)).extractLsb' 0 6 = low := by
  apply BitVec.eq_of_toNat_eq
  simp only [BitVec.extractLsb'_toNat, joinOp_toNat, join3And3And6_toNat, Nat.shiftRight_zero]
  omega

theorem low5_lowImm (op : BitVec 4) (hi mid : BitVec 3) (imm : Word) :
    (joinOp op (join3And3And6 hi mid (lowImm imm))).extractLsb' 0 5 = imm.setWidth 5 := by
  apply BitVec.eq_of_toNat_eq
  simp only [BitVec.extractLsb'_toNat, joinOp_toNat, join3And3And6_toNat, lowImm_toNat, Nat.shiftRight_zero,
    BitVec.toNat_setWidth]
  omega

theorem low11_joinJsr (op : BitVec 4) (off : Word) :
    (joinOp op (joinJsr off)).extractLsb' 0 11 = off.setWidth 11 := by
  apply BitVec.eq_of_toNat_eq
  simp only [BitVec.extractLsb'_toNat, joinOp_toNat, joinJsr_toNat, Nat.shiftRight_zero, BitVec.toNat_setWidth]
  omega

/-- The condmask bits of an encoded BR are n, z, p again. -/
theorem nzp_join9 (op : BitVec 4) (n z p : Bool) (off : BitVec 9) :
    (joinOp op (join3And9 (nzpBits n z p) off)).getLsbD 11 = n ∧
    (joinOp op (join3And9 (nzpBits n z p) off)).getLsbD 10 = z ∧
    (joinOp op (join3And9 (nzpBits n z p) off)).getLsbD 9 = p := by
  simp only [BitVec.getLsbD, Nat.testBit_eq_decide_div_mod_eq, joinOp_toNat, join3And9_toNat]
  cases n <;> cases z <;> cases p <;> simp [nzpBits] <;> omega

/-- The decoder's two outputs make up the word (R92). -/
theorem join_opcode_rest (w : Word) : joinOp (opcode w) (restBits w) = w := by
  apply BitVec.eq_of_toNat_eq
  simp only [joinOp_toNat, opcode_toNat, restBits_toNat]
  omega

/-- The condmask is the n, z, p that the decoder gives BR (R98, R103). -/
theorem condmask_eq (w : Word) : condmask w = nzpBits (w.getLsbD 11) (w.getLsbD 10) (w.getLsbD 9) := by
  apply BitVec.eq_of_getLsbD_eq
  intro i hi
  have : i = 0 ∨ i = 1 ∨ i = 2 := by omega
  rcases this with rfl | rfl | rfl <;> simp [condmask, nzpBits] <;>
    cases w[11] <;> cases w[10] <;> cases w[9] <;> rfl

/-! ### A word as its fields, and bitwise operations field by field -/

/-- Every word is its opcode over its three-field split. -/
theorem word_eta (w : Word) :
    joinOp (opcode w) (join3And3And6 (w.extractLsb' 9 3) (w.extractLsb' 6 3) (w.extractLsb' 0 6)) = w := by
  have := w.isLt
  apply BitVec.eq_of_toNat_eq
  simp only [joinOp_toNat, join3And3And6_toNat, opcode_toNat, BitVec.extractLsb'_toNat, Nat.shiftRight_eq_div_pow]
  omega

theorem and_joinOp (op op' : BitVec 4) (r r' : BitVec 12) :
    joinOp op r &&& joinOp op' r' = joinOp (op &&& op') (r &&& r') := BitVec.and_append ..

theorem xor_joinOp (op op' : BitVec 4) (r r' : BitVec 12) :
    joinOp op r ^^^ joinOp op' r' = joinOp (op ^^^ op') (r ^^^ r') := BitVec.xor_append ..

theorem and_join6 (a a' b b' : BitVec 3) (c c' : BitVec 6) :
    join3And3And6 a b c &&& join3And3And6 a' b' c' = join3And3And6 (a &&& a') (b &&& b') (c &&& c') :=
  (BitVec.and_append ..).trans (congrArg _ (BitVec.and_append ..))

theorem xor_join6 (a a' b b' : BitVec 3) (c c' : BitVec 6) :
    join3And3And6 a b c ^^^ join3And3And6 a' b' c' = join3And3And6 (a ^^^ a') (b ^^^ b') (c ^^^ c') :=
  (BitVec.xor_append ..).trans (congrArg _ (BitVec.xor_append ..))

theorem joinOp_inj {op op' : BitVec 4} {r r' : BitVec 12} : joinOp op r = joinOp op' r' ↔ op = op' ∧ r = r' := by
  simp only [BitVec.toNat_eq, joinOp_toNat]
  omega

theorem join6_inj {a a' b b' : BitVec 3} {c c' : BitVec 6} :
    join3And3And6 a b c = join3And3And6 a' b' c' ↔ a = a' ∧ b = b' ∧ c = c' := by
  simp only [BitVec.toNat_eq, join3And3And6_toNat]
  omega

/-- The sixteen opcode values. -/
theorem opcode_cases (k : BitVec 4) : k = 0x0#4 ∨ k = 0x1#4 ∨ k = 0x2#4 ∨ k = 0x3#4 ∨ k = 0x4#4 ∨ k = 0x5#4 ∨ k = 0x6#4 ∨
    k = 0x7#4 ∨ k = 0x8#4 ∨ k = 0x9#4 ∨ k = 0xA#4 ∨ k = 0xB#4 ∨ k = 0xC#4 ∨ k = 0xD#4 ∨ k = 0xE#4 ∨ k = 0xF#4 := by
  revert k
  decide

/-- The opcode value of each instruction (30_encoding.md R95). -/
def opcodeOf : Instr → BitVec 4
  | .br _ _ _ _ => 0x0#4
  | .addReg _ _ _ => 0x1#4
  | .addImm _ _ _ => 0x1#4
  | .ld _ _ => 0x2#4
  | .st _ _ => 0x3#4
  | .jsr _ => 0x4#4
  | .jsrr _ => 0x4#4
  | .andReg _ _ _ => 0x5#4
  | .andImm _ _ _ => 0x5#4
  | .ldr _ _ _ => 0x6#4
  | .str _ _ _ => 0x7#4
  | .rti => 0x8#4
  | .not _ _ => 0x9#4
  | .ldi _ _ => 0xA#4
  | .sti _ _ => 0xB#4
  | .jmp _ => 0xC#4
  | .res => 0xD#4
  | .lea _ _ => 0xE#4
  | .trap _ => 0xF#4

/-- The decoded instruction tells the word's opcode. -/
theorem opcodeOf_decode (w : Word) : opcodeOf (decode w) = opcode w := by
  rcases opcode_cases (opcode w) with h | h | h | h | h | h | h | h | h | h | h | h | h | h | h | h
  · rw [decode_br h, h]; rfl
  · cases hm : immMode w
    · rw [decode_addReg h hm, h]; rfl
    · rw [decode_addImm h hm, h]; rfl
  · rw [decode_ld h, h]; rfl
  · rw [decode_st h, h]; rfl
  · cases hm : jsrMode w
    · rw [decode_jsrr h hm, h]; rfl
    · rw [decode_jsr h hm, h]; rfl
  · cases hm : immMode w
    · rw [decode_andReg h hm, h]; rfl
    · rw [decode_andImm h hm, h]; rfl
  · rw [decode_ldr h, h]; rfl
  · rw [decode_str h, h]; rfl
  · rw [decode_rti h, h]; rfl
  · rw [decode_not h, h]; rfl
  · rw [decode_ldi h, h]; rfl
  · rw [decode_sti h, h]; rfl
  · rw [decode_jmp h, h]; rfl
  · rw [decode_res h, h]; rfl
  · rw [decode_lea h, h]; rfl
  · rw [decode_trap h, h]; rfl

theorem decode_eq_trap_iff (w : Word) (v : BitVec 8) : decode w = .trap v ↔ opcode w = 0xF#4 ∧ trapvect8 w = v := by
  constructor
  · intro h
    have ho : opcode w = 0xF#4 := (opcodeOf_decode w).symm.trans (by rw [h]; rfl)
    exact ⟨ho, Instr.trap.inj ((decode_trap ho).symm.trans h)⟩
  · rintro ⟨ho, hv⟩
    rw [decode_trap ho, hv]

theorem decode_eq_res_iff (w : Word) : decode w = .res ↔ opcode w = 0xD#4 :=
  ⟨fun h => (opcodeOf_decode w).symm.trans (by rw [h]; rfl), decode_res⟩

theorem decode_eq_rti_iff (w : Word) : decode w = .rti ↔ opcode w = 0x8#4 :=
  ⟨fun h => (opcodeOf_decode w).symm.trans (by rw [h]; rfl), decode_rti⟩

/-! ### Sign extension (00_scope.md R12) -/

theorem sext_toInt {n : Nat} (hn : n ≤ 16) (v : BitVec n) : (sext v).toInt = v.toInt :=
  BitVec.toInt_signExtend_of_le hn

/-- A word in a field's signed range is the sign extension of its low bits. -/
theorem sext_setWidth {n : Nat} (hn : 0 < n) (hn' : n ≤ 16) {w : Word} (h : fitsSigned n w = true) :
    sext (w.setWidth n) = w := by
  apply BitVec.eq_of_toInt_eq
  rw [sext_toInt hn', BitVec.toInt_setWidth]
  simp only [fitsSigned, Bool.and_eq_true, decide_eq_true_eq] at h
  have hp : ((2 ^ n : Nat) : Int) = 2 ^ (n - 1) * 2 := by
    rw [← pow_succ, Nat.sub_add_cancel hn]
    push_cast
    rfl
  rw [← Int.bmod_bmod_of_dvd (a := (w.toNat : Int)) (Nat.pow_dvd_pow 2 hn'), ← BitVec.toInt_eq_toNat_bmod]
  exact Int.bmod_eq_of_le_mul_two (by omega) (by omega)

theorem fitsSigned_sext {n : Nat} (hn : 0 < n) (hn' : n ≤ 16) (v : BitVec n) : fitsSigned n (sext v) = true := by
  have h1 := BitVec.le_two_mul_toInt (x := v)
  have h2 := BitVec.two_mul_toInt_lt (x := v)
  have hp : (2 : Int) ^ n = 2 ^ (n - 1) * 2 := by rw [← pow_succ, Nat.sub_add_cancel hn]
  simp only [fitsSigned, sext_toInt hn', Bool.and_eq_true, decide_eq_true_eq]
  constructor <;> omega

end Sys2Proof
end

