-- ==== Sys2Proof/Laws/Memory.lean ====
section
/-! SUPPORT. What memory operations do: a read after a write (20_memory.md R63), and that a write keeps the canonical
form. The read laws need no well-formedness. -/

namespace Sys2Proof.Machine

/-! ### One byte of the list -/

theorem cellByte_eraseCell (cells : List Host.Cell) (k k' : Nat) :
    cellByte (eraseCell k cells) k' = if k' = k then 0#8 else cellByte cells k' := by
  induction cells with
  | nil => simp [eraseCell, cellByte]
  | cons c rest ih =>
    obtain ⟨j, b⟩ := c
    by_cases hj : j = k
    · simp only [eraseCell, hj, if_true, ih, cellByte]
      split
      · rfl
      · next h => simp [Ne.symm h]
    · simp only [eraseCell, hj, if_false, cellByte, ih]
      split
      · next h => simp [h ▸ hj]
      · rfl

theorem cellByte_insertCell (cells : List Host.Cell) (k k' : Nat) (b : Byte)
    (habsent : ∀ c ∈ cells, c.1 ≠ k) :
    cellByte (insertCell k b cells) k' = if k' = k then b else cellByte cells k' := by
  induction cells with
  | nil => simp [insertCell, cellByte, eq_comm]
  | cons c rest ih =>
    obtain ⟨j, b'⟩ := c
    have hj : j ≠ k := habsent _ (List.mem_cons_self ..)
    have hrest : ∀ c ∈ rest, c.1 ≠ k := fun c hc => habsent c (List.mem_cons_of_mem _ hc)
    simp only [insertCell]
    split
    · simp only [cellByte, eq_comm]
    · simp only [cellByte, ih hrest]
      split
      · next hjk => simp [← hjk, hj]
      · rfl

theorem eraseCell_absent (cells : List Host.Cell) (k : Nat) : ∀ c ∈ eraseCell k cells, c.1 ≠ k := by
  induction cells with
  | nil => simp [eraseCell]
  | cons c rest ih =>
    obtain ⟨j, b⟩ := c
    simp only [eraseCell]
    split
    · exact ih
    · next hj => simpa using ⟨hj, fun a b h => ih (a, b) h⟩

@[simp] theorem cellByte_setByte (cells : List Host.Cell) (k k' : Nat) (b : Byte) :
    cellByte (setByte cells k b) k' = if k' = k then b else cellByte cells k' := by
  unfold setByte
  split
  · next hb => rw [cellByte_eraseCell, hb]
  · rw [cellByte_insertCell _ _ _ _ (eraseCell_absent cells k), cellByte_eraseCell]
    split <;> rfl

/-! ### One word -/

theorem word_of_bytes (v : Word) : (v.extractLsb' 8 8 ++ v.extractLsb' 0 8 : BitVec (8 + 8)) = v := by
  ext i hi
  simp only [BitVec.getElem_append, BitVec.getElem_extractLsb']
  split
  · simp [BitVec.getLsbD_eq_getElem hi]
  · next h => simp [show 8 + (i - 8) = i by omega, BitVec.getLsbD_eq_getElem hi]

/-- MemRead after MemWrite: the written word at its address, every other word as before (20_memory.md R63). -/
theorem read_write (m : Memory) (a a' v : Word) :
    (m.write a v).read a' = if a' = a then v else m.read a' := by
  have hk : ∀ x y : Word, hiKey x = hiKey y ↔ x = y := fun x y => by
    simp only [hiKey, BitVec.toNat_eq]; omega
  have hl : ∀ x y : Word, loKey x = loKey y ↔ x = y := fun x y => by
    simp only [loKey, BitVec.toNat_eq]; omega
  have hne : ∀ x y : Word, hiKey x ≠ loKey y := fun x y => by simp only [hiKey, loKey]; omega
  simp only [Memory.read, Memory.write, cellByte_setByte, hk, hl, hne, Ne.symm (hne _ _), if_false]
  split
  · exact word_of_bytes v
  · rfl

@[simp] theorem read_write_same (m : Memory) (a v : Word) : (m.write a v).read a = v := by simp [read_write]

theorem read_write_other (m : Memory) {a a' : Word} (v : Word) (h : a' ≠ a) :
    (m.write a v).read a' = m.read a' := by simp [read_write, h]

@[simp] theorem read_empty (a : Word) : ({ cells := [] } : Memory).read a = 0x0000#16 := by
  simp [Memory.read, cellByte]

/-! ### The canonical form -/

/-- Keys strictly rising, as a property of pairs. -/
theorem keysRising_iff (cells : List Host.Cell) : keysRising cells = true ↔ cells.Pairwise (·.1 < ·.1) := by
  induction cells with
  | nil => simp [keysRising]
  | cons c rest ih =>
    cases rest with
    | nil => simp [keysRising]
    | cons d rest =>
      simp only [keysRising, Bool.and_eq_true, decide_eq_true_eq, ih]
      constructor
      · rintro ⟨hcd, hp⟩
        refine List.pairwise_cons.2 ⟨fun e he => ?_, hp⟩
        rcases List.mem_cons.1 he with rfl | he
        · exact hcd
        · exact hcd.trans ((List.pairwise_cons.1 hp).1 e he)
      · intro hp
        exact ⟨(List.pairwise_cons.1 hp).1 d (List.mem_cons_self ..), (List.pairwise_cons.1 hp).2⟩

theorem wf_iff (m : Memory) : m.wf = true ↔
    m.cells.Pairwise (·.1 < ·.1) ∧ ∀ c ∈ m.cells, c.1 < 131072 ∧ c.2 ≠ 0#8 := by
  simp [Memory.wf, keysRising_iff]

theorem eraseCell_sublist (cells : List Host.Cell) (k : Nat) : (eraseCell k cells).Sublist cells := by
  induction cells with
  | nil => exact List.Sublist.slnil
  | cons c rest ih =>
    simp only [eraseCell]
    split
    · exact ih.cons _
    · exact ih.cons_cons _

theorem mem_insertCell (cells : List Host.Cell) (k : Nat) (b : Byte) (c : Host.Cell) :
    c ∈ insertCell k b cells ↔ c = (k, b) ∨ c ∈ cells := by
  induction cells with
  | nil => simp [insertCell]
  | cons d rest ih =>
    simp only [insertCell]
    split
    · simp
    · simp [ih, or_left_comm]

theorem insertCell_rising (cells : List Host.Cell) (k : Nat) (b : Byte) (h : cells.Pairwise (·.1 < ·.1))
    (habsent : ∀ c ∈ cells, c.1 ≠ k) : (insertCell k b cells).Pairwise (·.1 < ·.1) := by
  induction cells with
  | nil => simp [insertCell]
  | cons d rest ih =>
    obtain ⟨hd, hp⟩ := List.pairwise_cons.1 h
    have hdk : d.1 ≠ k := habsent d (List.mem_cons_self ..)
    simp only [insertCell]
    split
    · next hk =>
      refine List.pairwise_cons.2 ⟨fun c hc => ?_, h⟩
      rcases List.mem_cons.1 hc with rfl | hc
      · exact hk
      · exact Nat.lt_trans hk (hd c hc)
    · next hk =>
      refine List.pairwise_cons.2 ⟨fun c hc => ?_, ih hp fun c hc => habsent c (List.mem_cons_of_mem _ hc)⟩
      rcases (mem_insertCell ..).1 hc with rfl | hc
      · change d.1 < k
        omega
      · exact hd c hc

theorem setByte_wf (cells : List Host.Cell) (k : Nat) (b : Byte) (hk : k < 131072)
    (h : Memory.wf { cells := cells } = true) : Memory.wf { cells := setByte cells k b } = true := by
  rw [wf_iff] at h ⊢
  obtain ⟨hp, hall⟩ := h
  have hsub := eraseCell_sublist cells k
  unfold setByte
  split
  · exact ⟨hp.sublist hsub, fun c hc => hall c (hsub.subset hc)⟩
  · next hb =>
    refine ⟨insertCell_rising _ _ _ (hp.sublist hsub) (eraseCell_absent cells k), fun c hc => ?_⟩
    rcases (mem_insertCell ..).1 hc with rfl | hc
    · exact ⟨hk, hb⟩
    · exact hall c (hsub.subset hc)

/-- A write keeps the canonical form. -/
theorem write_wf (m : Memory) (a v : Word) (h : m.wf = true) : (m.write a v).wf = true := by
  have ha := a.isLt
  exact setByte_wf _ _ _ (by simp only [loKey]; omega) (setByte_wf _ _ _ (by simp only [hiKey]; omega) h)

@[simp] theorem reset_mem_wf : State.reset.mem.wf = true := rfl

/-! ### Canonical memories with equal reads are equal -/

theorem cellByte_of_mem (cells : List Host.Cell) (h : cells.Pairwise (·.1 < ·.1)) {c : Host.Cell} (hc : c ∈ cells) :
    cellByte cells c.1 = c.2 := by
  induction cells with
  | nil => cases hc
  | cons d rest ih =>
    obtain ⟨hd, hp⟩ := List.pairwise_cons.1 h
    rcases List.mem_cons.1 hc with rfl | hc
    · simp [cellByte]
    · have := hd c hc
      simp [cellByte, show d.1 ≠ c.1 by omega, ih hp hc]

theorem cellByte_eq_zero (cells : List Host.Cell) (k : Nat) (h : ∀ c ∈ cells, c.1 ≠ k) : cellByte cells k = 0#8 := by
  induction cells with
  | nil => rfl
  | cons d rest ih =>
    have hd : d.1 ≠ k := h d (List.mem_cons_self ..)
    simp [cellByte, hd, ih fun c hc => h c (List.mem_cons_of_mem _ hc)]

theorem cells_ext (l l' : List Host.Cell) (hl : l.Pairwise (·.1 < ·.1)) (hl' : l'.Pairwise (·.1 < ·.1))
    (hz : ∀ c ∈ l, c.2 ≠ 0#8) (hz' : ∀ c ∈ l', c.2 ≠ 0#8) (h : ∀ k, cellByte l k = cellByte l' k) : l = l' := by
  have hmem : ∀ (x y : List Host.Cell), x.Pairwise (·.1 < ·.1) → y.Pairwise (·.1 < ·.1) → (∀ c ∈ x, c.2 ≠ 0#8) →
      (∀ k, cellByte x k = cellByte y k) → ∀ c ∈ x, c ∈ y := by
    intro x y hx hy hxz hxy c hc
    by_contra hcy
    have h1 : cellByte y c.1 = c.2 := (hxy c.1).symm.trans (cellByte_of_mem x hx hc)
    by_cases hin : ∃ d ∈ y, d.1 = c.1
    · obtain ⟨d, hd, hdc⟩ := hin
      have h2 : cellByte y c.1 = d.2 := hdc ▸ cellByte_of_mem y hy hd
      exact hcy ((Prod.ext hdc (h2.symm.trans h1) : d = c) ▸ hd)
    · exact hxz c hc (h1.symm.trans (cellByte_eq_zero y c.1 fun d hd hdc => hin ⟨d, hd, hdc⟩))
  have hnodup : ∀ x : List Host.Cell, x.Pairwise (·.1 < ·.1) → x.Nodup := fun x hx =>
    hx.imp fun hab heq => by subst heq; exact Nat.lt_irrefl _ hab
  have hperm : l.Perm l' := (List.perm_ext_iff_of_nodup (hnodup l hl) (hnodup l' hl')).2 fun c =>
    ⟨hmem l l' hl hl' hz h c, hmem l' l hl' hl hz' (fun k => (h k).symm) c⟩
  exact hperm.eq_of_pairwise (fun a b _ _ hab hba => absurd (Nat.lt_trans hab hba) (Nat.lt_irrefl _)) hl hl'

/-- Canonical memories that read alike are the same data. -/
theorem memory_ext (m m' : Memory) (h : m.wf = true) (h' : m'.wf = true) (hr : ∀ a, m.read a = m'.read a) : m = m' := by
  obtain ⟨hp, hall⟩ := (wf_iff m).1 h
  obtain ⟨hp', hall'⟩ := (wf_iff m').1 h'
  have hbytes : ∀ a : Word, cellByte m.cells (hiKey a) = cellByte m'.cells (hiKey a) ∧
      cellByte m.cells (loKey a) = cellByte m'.cells (loKey a) := fun a => by
    have h : (cellByte m.cells (hiKey a) ++ cellByte m.cells (loKey a) : BitVec (8 + 8)) =
        cellByte m'.cells (hiKey a) ++ cellByte m'.cells (loKey a) := hr a
    constructor
    · simpa only [BitVec.extractLsb'_append_eq_left] using congrArg (BitVec.extractLsb' 8 8) h
    · simpa only [BitVec.extractLsb'_append_eq_right] using congrArg (BitVec.extractLsb' 0 8) h
  have hcells : ∀ k, cellByte m.cells k = cellByte m'.cells k := by
    intro k
    by_cases hk : k < 131072
    · have hto : (BitVec.ofNat 16 (k / 2)).toNat = k / 2 := by simp; omega
      obtain ⟨h0, h1⟩ := hbytes (BitVec.ofNat 16 (k / 2))
      simp only [hiKey, loKey, hto] at h0 h1
      rcases Nat.mod_two_eq_zero_or_one k with hk2 | hk2
      · rwa [show 2 * (k / 2) = k by omega] at h0
      · rwa [show 2 * (k / 2) + 1 = k by omega] at h1
    · rw [cellByte_eq_zero _ _ fun c hc hck => hk (by have := (hall c hc).1; omega),
        cellByte_eq_zero _ _ fun c hc hck => hk (by have := (hall' c hc).1; omega)]
  have := cells_ext m.cells m'.cells hp hp' (fun c hc => (hall c hc).2) (fun c hc => (hall' c hc).2) hcells
  cases m; cases m'; simpa using this

end Sys2Proof.Machine
end

