-- ==== Sys2Proof/Laws/State.lean ====
section
/-! SUPPORT. One lemma per field of State and per operation that updates it, each true by rfl, so that no proof unfolds a
record update; and what reading a register gives after each operation. -/

namespace Sys2Proof.Machine

/-! ### `setReg`: register write -/

@[simp] theorem setReg_regs (s : State) (r : Reg) (v : Word) : (s.setReg r v).regs = s.regs.set r v := rfl
@[simp] theorem setReg_pc (s : State) (r : Reg) (v : Word) : (s.setReg r v).pc = s.pc := rfl
@[simp] theorem setReg_cond (s : State) (r : Reg) (v : Word) : (s.setReg r v).cond = s.cond := rfl
@[simp] theorem setReg_mem (s : State) (r : Reg) (v : Word) : (s.setReg r v).mem = s.mem := rfl
@[simp] theorem setReg_status (s : State) (r : Reg) (v : Word) : (s.setReg r v).status = s.status := rfl
@[simp] theorem setReg_out (s : State) (r : Reg) (v : Word) : (s.setReg r v).out = s.out := rfl
@[simp] theorem setReg_input (s : State) (r : Reg) (v : Word) : (s.setReg r v).input = s.input := rfl

/-! ### `setPc`: pc write -/

@[simp] theorem setPc_regs (s : State) (v : Word) : (s.setPc v).regs = s.regs := rfl
@[simp] theorem setPc_pc (s : State) (v : Word) : (s.setPc v).pc = v := rfl
@[simp] theorem setPc_cond (s : State) (v : Word) : (s.setPc v).cond = s.cond := rfl
@[simp] theorem setPc_mem (s : State) (v : Word) : (s.setPc v).mem = s.mem := rfl
@[simp] theorem setPc_status (s : State) (v : Word) : (s.setPc v).status = s.status := rfl
@[simp] theorem setPc_out (s : State) (v : Word) : (s.setPc v).out = s.out := rfl
@[simp] theorem setPc_input (s : State) (v : Word) : (s.setPc v).input = s.input := rfl
@[simp] theorem setPc_reg (s : State) (v : Word) (r' : Reg) : (s.setPc v).reg r' = s.reg r' := rfl

/-! ### `link`: R7 <- pc -/

@[simp] theorem link_regs (s : State) : (s.link).regs = s.regs.set (7 : Reg) s.pc := rfl
@[simp] theorem link_pc (s : State) : (s.link).pc = s.pc := rfl
@[simp] theorem link_cond (s : State) : (s.link).cond = s.cond := rfl
@[simp] theorem link_mem (s : State) : (s.link).mem = s.mem := rfl
@[simp] theorem link_status (s : State) : (s.link).status = s.status := rfl
@[simp] theorem link_out (s : State) : (s.link).out = s.out := rfl
@[simp] theorem link_input (s : State) : (s.link).input = s.input := rfl

/-! ### `store`: memory write -/

@[simp] theorem store_regs (s : State) (a v : Word) : (s.store a v).regs = s.regs := rfl
@[simp] theorem store_pc (s : State) (a v : Word) : (s.store a v).pc = s.pc := rfl
@[simp] theorem store_cond (s : State) (a v : Word) : (s.store a v).cond = s.cond := rfl
@[simp] theorem store_mem (s : State) (a v : Word) : (s.store a v).mem = s.mem.write a v := rfl
@[simp] theorem store_status (s : State) (a v : Word) : (s.store a v).status = s.status := rfl
@[simp] theorem store_out (s : State) (a v : Word) : (s.store a v).out = s.out := rfl
@[simp] theorem store_input (s : State) (a v : Word) : (s.store a v).input = s.input := rfl
@[simp] theorem store_reg (s : State) (a v : Word) (r' : Reg) : (s.store a v).reg r' = s.reg r' := rfl

/-! ### `devWrite`: DevWrite -/

@[simp] theorem devWrite_regs (s : State) (bs : List Byte) : (s.devWrite bs).regs = s.regs := rfl
@[simp] theorem devWrite_pc (s : State) (bs : List Byte) : (s.devWrite bs).pc = s.pc := rfl
@[simp] theorem devWrite_cond (s : State) (bs : List Byte) : (s.devWrite bs).cond = s.cond := rfl
@[simp] theorem devWrite_mem (s : State) (bs : List Byte) : (s.devWrite bs).mem = s.mem := rfl
@[simp] theorem devWrite_status (s : State) (bs : List Byte) : (s.devWrite bs).status = s.status := rfl
@[simp] theorem devWrite_out (s : State) (bs : List Byte) : (s.devWrite bs).out = s.out ++ bs := rfl
@[simp] theorem devWrite_input (s : State) (bs : List Byte) : (s.devWrite bs).input = s.input := rfl
@[simp] theorem devWrite_reg (s : State) (bs : List Byte) (r' : Reg) : (s.devWrite bs).reg r' = s.reg r' := rfl

/-! ### `answered`: DevRead's request answered -/

@[simp] theorem answered_regs (s : State) : (s.answered).regs = s.regs := rfl
@[simp] theorem answered_pc (s : State) : (s.answered).pc = s.pc := rfl
@[simp] theorem answered_cond (s : State) : (s.answered).cond = s.cond := rfl
@[simp] theorem answered_mem (s : State) : (s.answered).mem = s.mem := rfl
@[simp] theorem answered_status (s : State) : (s.answered).status = s.status := rfl
@[simp] theorem answered_out (s : State) : (s.answered).out = s.out := rfl
@[simp] theorem answered_input (s : State) : (s.answered).input = s.input.next := rfl
@[simp] theorem answered_reg (s : State) (r' : Reg) : (s.answered).reg r' = s.reg r' := rfl

/-- A request answered changes nothing of the record of R44. -/
@[simp] theorem answered_toCoreState (s : State) : (s.answered).toCoreState = s.toCoreState := rfl

/-! ### The input device -/

@[simp] theorem answer_eq (s : State) : s.answer = s.input.answer := rfl
@[simp] theorem next_known (d : InDevice) : d.next.known = d.known.tail := rfl
@[simp] theorem next_served (d : InDevice) : d.next.served = d.served + 1 := rfl
@[simp] theorem answer_known (a : InAnswer) (as : List InAnswer) (n : Nat) :
    InDevice.answer { known := a :: as, served := n } = a := rfl
@[simp] theorem answer_open (n : Nat) : InDevice.answer { known := [], served := n } = Config.input n := rfl

/-- The device's k-th answer from now on: the k-th known one while there is one, and INPUT's from then on. -/
theorem answer_after (k : Nat) (d : InDevice) :
    (Nat.repeat InDevice.next k d).answer = d.known.getD k (Config.input (d.served + k)) := by
  have after : Nat.repeat InDevice.next k d = { known := d.known.drop k, served := d.served + k } := by
    induction k with
    | zero => rfl
    | succ k ih => simp [Nat.repeat, ih, InDevice.next, Nat.add_assoc]
  rw [after]
  rcases h : d.known.drop k with _ | ⟨a, as⟩
  · simp [List.getD, List.getElem?_eq_none (List.drop_eq_nil_iff.1 h)]
  · have := congrArg List.head? h
    simp only [List.head?_drop, List.head?_cons] at this
    simp [List.getD, this]

/-! ### `advance`: the fetch's pc increment -/

@[simp] theorem advance_regs (s : State) : (s.advance).regs = s.regs := rfl
@[simp] theorem advance_pc (s : State) : (s.advance).pc = s.pc + 1#16 := rfl
@[simp] theorem advance_cond (s : State) : (s.advance).cond = s.cond := rfl
@[simp] theorem advance_mem (s : State) : (s.advance).mem = s.mem := rfl
@[simp] theorem advance_status (s : State) : (s.advance).status = s.status := rfl
@[simp] theorem advance_out (s : State) : (s.advance).out = s.out := rfl
@[simp] theorem advance_input (s : State) : (s.advance).input = s.input := rfl
@[simp] theorem advance_reg (s : State) (r' : Reg) : (s.advance).reg r' = s.reg r' := rfl

/-! ### `raise`: a fatal fault -/

@[simp] theorem raise_regs (s : State) (c : FaultCause) : (s.raise c).regs = s.regs := rfl
@[simp] theorem raise_pc (s : State) (c : FaultCause) : (s.raise c).pc = s.pc := rfl
@[simp] theorem raise_cond (s : State) (c : FaultCause) : (s.raise c).cond = s.cond := rfl
@[simp] theorem raise_mem (s : State) (c : FaultCause) : (s.raise c).mem = s.mem := rfl
@[simp] theorem raise_status (s : State) (c : FaultCause) : (s.raise c).status = .faulted c (s.pc - 1#16) (s.mem.read (s.pc - 1#16)) := rfl
@[simp] theorem raise_out (s : State) (c : FaultCause) : (s.raise c).out = s.out := rfl
@[simp] theorem raise_input (s : State) (c : FaultCause) : (s.raise c).input = s.input := rfl
@[simp] theorem raise_reg (s : State) (c : FaultCause) (r' : Reg) : (s.raise c).reg r' = s.reg r' := rfl

/-! ### `halt`: HALT -/

@[simp] theorem halt_regs (s : State) : (s.halt).regs = s.regs := rfl
@[simp] theorem halt_pc (s : State) : (s.halt).pc = s.pc := rfl
@[simp] theorem halt_cond (s : State) : (s.halt).cond = s.cond := rfl
@[simp] theorem halt_mem (s : State) : (s.halt).mem = s.mem := rfl
@[simp] theorem halt_status (s : State) : (s.halt).status = .halted := rfl
@[simp] theorem halt_out (s : State) : (s.halt).out = s.out := rfl
@[simp] theorem halt_input (s : State) : (s.halt).input = s.input := rfl
@[simp] theorem halt_reg (s : State) (r' : Reg) : (s.halt).reg r' = s.reg r' := rfl

/-! ### `hold`: a hold -/

@[simp] theorem hold_regs (s : State) : (s.hold).regs = s.regs := rfl
@[simp] theorem hold_pc (s : State) : (s.hold).pc = s.pc - 1#16 := rfl
@[simp] theorem hold_cond (s : State) : (s.hold).cond = s.cond := rfl
@[simp] theorem hold_mem (s : State) : (s.hold).mem = s.mem := rfl
@[simp] theorem hold_status (s : State) : (s.hold).status = s.status := rfl
@[simp] theorem hold_out (s : State) : (s.hold).out = s.out := rfl
@[simp] theorem hold_input (s : State) : (s.hold).input = s.input.next := rfl
@[simp] theorem hold_reg (s : State) (r' : Reg) : (s.hold).reg r' = s.reg r' := rfl

/-! ### `setCC`: the Condition-Code Unit -/

@[simp] theorem setCC_regs (s : State) (v : Word) : (s.setCC v).regs = s.regs := rfl
@[simp] theorem setCC_pc (s : State) (v : Word) : (s.setCC v).pc = s.pc := rfl
@[simp] theorem setCC_cond (s : State) (v : Word) : (s.setCC v).cond = cc v := rfl
@[simp] theorem setCC_mem (s : State) (v : Word) : (s.setCC v).mem = s.mem := rfl
@[simp] theorem setCC_status (s : State) (v : Word) : (s.setCC v).status = s.status := rfl
@[simp] theorem setCC_out (s : State) (v : Word) : (s.setCC v).out = s.out := rfl
@[simp] theorem setCC_input (s : State) (v : Word) : (s.setCC v).input = s.input := rfl
@[simp] theorem setCC_reg (s : State) (v : Word) (r' : Reg) : (s.setCC v).reg r' = s.reg r' := rfl

/-! ### `setResult`: a flag-writing result -/

@[simp] theorem setResult_regs (s : State) (r : Reg) (v : Word) : (s.setResult r v).regs = s.regs.set r v := rfl
@[simp] theorem setResult_pc (s : State) (r : Reg) (v : Word) : (s.setResult r v).pc = s.pc := rfl
@[simp] theorem setResult_cond (s : State) (r : Reg) (v : Word) : (s.setResult r v).cond = cc v := rfl
@[simp] theorem setResult_mem (s : State) (r : Reg) (v : Word) : (s.setResult r v).mem = s.mem := rfl
@[simp] theorem setResult_status (s : State) (r : Reg) (v : Word) : (s.setResult r v).status = s.status := rfl
@[simp] theorem setResult_out (s : State) (r : Reg) (v : Word) : (s.setResult r v).out = s.out := rfl
@[simp] theorem setResult_input (s : State) (r : Reg) (v : Word) : (s.setResult r v).input = s.input := rfl

/-! ### Reading a register after a write -/

theorem regs_set_reg (regs : Vector Word 8) (r r' : Reg) (v : Word) :
    (regs.set r v)[r'] = if r' = r then v else regs[r'] := by
  simp only [Fin.getElem_fin, Vector.getElem_set, Fin.ext_iff, eq_comm]

@[simp] theorem setReg_reg (s : State) (r r' : Reg) (v : Word) :
    (s.setReg r v).reg r' = if r' = r then v else s.reg r' := regs_set_reg ..

@[simp] theorem link_reg (s : State) (r' : Reg) :
    s.link.reg r' = if r' = 7 then s.pc else s.reg r' := regs_set_reg ..

@[simp] theorem setResult_reg (s : State) (r r' : Reg) (v : Word) :
    (s.setResult r v).reg r' = if r' = r then v else s.reg r' := regs_set_reg ..

@[simp] theorem reset_reg (r : Reg) : State.reset.reg r = 0x0000#16 := by
  simp [State.reset, State.reg]

@[simp] theorem instrAddr_eq (s : State) : s.instrAddr = s.pc - 1#16 := rfl

@[simp] theorem instrWord_eq (s : State) : s.instrWord = s.mem.read (s.pc - 1#16) := rfl

@[simp] theorem fetchWord_eq (s : State) : s.fetchWord = s.mem.read s.pc := rfl

/-- During an instruction, the word just before pc is the one that was fetched. -/
@[simp] theorem advance_sub_one (s : State) : s.advance.pc - 1#16 = s.pc := by
  simp [State.advance]

/-- A hold leaves the record of R44 as it was before the fetch (40_cycle.md R134). -/
@[simp] theorem hold_advance_toCoreState (s : State) : s.advance.hold.toCoreState = s.toCoreState := by
  simp [State.hold, State.answered, State.instrAddr, State.advance]

end Sys2Proof.Machine
end

