-- ==== Sys2Proof/Laws/Exec.lean ====
section
/-! SUPPORT. What a TRAP can do, said once (44_trap.md R220-R232), the one-word steps of the string scans, and what an
instruction can do to memory. -/

namespace Sys2Proof.Machine

/-! ### The trap-vector ROM (R222) -/

theorem trapRom_none_iff (v : BitVec 8) : trapRom v = none ↔ v.toNat < 0x20 ∨ 0x25 < v.toNat := by
  revert v
  decide

/-- The ROM's outputs (R222): a valid vector's routine is numbered v - 0x20. -/
theorem trapRom_code {v : BitVec 8} {r : Routine} : trapRom v = some r → r.code.toNat = v.toNat - 0x20 := by
  revert r v
  decide

/-! ### TRAP by routine -/

theorem exec_trap (v : BitVec 8) (s : State) : exec (.trap v) s = execTrap v s := rfl

theorem execTrap_getc (s : State) : execTrap 0x20#8 s =
    match s.answer with
    | .byte c => .next (s.link.answered.setReg 0 (zext8 c))
    | .failure => .next (s.link.answered.raise .inputDeviceError)
    | .notYet => .next s.hold := by
  simp only [execTrap, trapRom, runRoutine, trapGetc, answer_eq, link_input]
  cases s.input.answer <;> rfl

theorem execTrap_out (s : State) : execTrap 0x21#8 s = .next (s.link.devWrite [lowByte (s.reg 0)]) := by
  simp [execTrap, trapRom, runRoutine, trapOut]

theorem execTrap_puts (s : State) : execTrap 0x22#8 s =
    match putsBytes s.mem allCells (s.reg 0) with
    | some bytes => .next (s.link.devWrite bytes)
    | none => .fault .stringDiverges := by
  simp [execTrap, trapRom, runRoutine, trapPuts]
  cases putsBytes s.mem allCells (s.reg 0) <;> rfl

theorem execTrap_in (s : State) : execTrap 0x23#8 s =
    match s.answer with
    | .byte c => .next (((s.link.devWrite Config.inPrompt).answered.devWrite [c]).setReg 0 (zext8 c))
    | .failure => .next ((s.link.devWrite Config.inPrompt).answered.raise .inputDeviceError)
    | .notYet => .next s.hold := by
  simp only [execTrap, trapRom, runRoutine, trapIn, answer_eq, link_input]
  cases s.input.answer <;> rfl

theorem execTrap_putsp (s : State) : execTrap 0x24#8 s =
    match putspBytes s.mem allCells (s.reg 0) with
    | some bytes => .next (s.link.devWrite bytes)
    | none => .fault .stringDiverges := by
  simp [execTrap, trapRom, runRoutine, trapPutsp]
  cases putspBytes s.mem allCells (s.reg 0) <;> rfl

theorem execTrap_halt (s : State) : execTrap 0x25#8 s = .next (s.link.devWrite Config.haltBanner).halt := rfl

theorem execTrap_unknown {v : BitVec 8} (h : trapRom v = none) (s : State) :
    execTrap v s = .next (s.link.raise .unknownTrapVector) := by
  simp [execTrap, h]

/-- Every way a TRAP answers a next state. -/
inductive TrapNext (s : State) : BitVec 8 → State → Prop where
  | unknown {v : BitVec 8} (h : v.toNat < 0x20 ∨ 0x25 < v.toNat) : TrapNext s v (s.link.raise .unknownTrapVector)
  | getcByte {c : Byte} (h : s.answer = .byte c) : TrapNext s 0x20#8 (s.link.answered.setReg 0 (zext8 c))
  | getcFailure (h : s.answer = .failure) : TrapNext s 0x20#8 (s.link.answered.raise .inputDeviceError)
  | getcHold (h : s.answer = .notYet) : TrapNext s 0x20#8 s.hold
  | out : TrapNext s 0x21#8 (s.link.devWrite [lowByte (s.reg 0)])
  | puts {bytes : List Byte} (h : putsBytes s.mem allCells (s.reg 0) = some bytes) :
    TrapNext s 0x22#8 (s.link.devWrite bytes)
  | inByte {c : Byte} (h : s.answer = .byte c) :
    TrapNext s 0x23#8 (((s.link.devWrite Config.inPrompt).answered.devWrite [c]).setReg 0 (zext8 c))
  | inFailure (h : s.answer = .failure) :
    TrapNext s 0x23#8 ((s.link.devWrite Config.inPrompt).answered.raise .inputDeviceError)
  | inHold (h : s.answer = .notYet) : TrapNext s 0x23#8 s.hold
  | putsp {bytes : List Byte} (h : putspBytes s.mem allCells (s.reg 0) = some bytes) :
    TrapNext s 0x24#8 (s.link.devWrite bytes)
  | halt : TrapNext s 0x25#8 (s.link.devWrite Config.haltBanner).halt

/-- The six vectors with a routine. -/
theorem vector_cases (v : BitVec 8) : (v.toNat < 0x20 ∨ 0x25 < v.toNat) ∨
    v = 0x20#8 ∨ v = 0x21#8 ∨ v = 0x22#8 ∨ v = 0x23#8 ∨ v = 0x24#8 ∨ v = 0x25#8 := by
  simp only [BitVec.toNat_eq, BitVec.toNat_ofNat]
  omega

/-- If a TRAP answers a next state, then in one of these ways. -/
theorem execTrap_next {v : BitVec 8} {s t : State} (h : execTrap v s = .next t) : TrapNext s v t := by
  rcases vector_cases v with hv | rfl | rfl | rfl | rfl | rfl | rfl
  · rw [execTrap_unknown ((trapRom_none_iff v).2 hv)] at h
    cases h
    exact .unknown hv
  · rw [execTrap_getc] at h
    split at h <;> cases h
    · exact .getcByte ‹_›
    · exact .getcFailure ‹_›
    · exact .getcHold ‹_›
  · rw [execTrap_out] at h
    cases h
    exact .out
  · rw [execTrap_puts] at h
    split at h <;> cases h
    exact .puts ‹_›
  · rw [execTrap_in] at h
    split at h <;> cases h
    · exact .inByte ‹_›
    · exact .inFailure ‹_›
    · exact .inHold ‹_›
  · rw [execTrap_putsp] at h
    split at h <;> cases h
    exact .putsp ‹_›
  · rw [execTrap_halt] at h
    cases h
    exact .halt

/-! ### The string scans, one word at a time (R228, R231) -/

theorem putsBytes_stop (m : Memory) (fuel : Nat) {p : Word} (h : m.read p = 0x0000#16) :
    putsBytes m (fuel + 1) p = some [] := by simp [putsBytes, h]

theorem putsBytes_go (m : Memory) (fuel : Nat) {p : Word} (h : m.read p ≠ 0x0000#16) :
    putsBytes m (fuel + 1) p = (putsBytes m fuel (p + 1#16)).map (lowByte (m.read p) :: ·) := by
  simp [putsBytes, h]

theorem putspBytes_stop (m : Memory) (fuel : Nat) {p : Word} (h : lowByte (m.read p) = 0x00#8) :
    putspBytes m (fuel + 1) p = some [] := by simp [putspBytes, h]

theorem putspBytes_half (m : Memory) (fuel : Nat) {p : Word} (hl : lowByte (m.read p) ≠ 0x00#8)
    (hh : highByte (m.read p) = 0x00#8) : putspBytes m (fuel + 1) p = some [lowByte (m.read p)] := by
  simp [putspBytes, hl, hh]

theorem putspBytes_go (m : Memory) (fuel : Nat) {p : Word} (hl : lowByte (m.read p) ≠ 0x00#8)
    (hh : highByte (m.read p) ≠ 0x00#8) : putspBytes m (fuel + 1) p =
      (putspBytes m fuel (p + 1#16)).map (fun rest => lowByte (m.read p) :: highByte (m.read p) :: rest) := by
  simp [putspBytes, hl, hh]

/-- With no zero word anywhere PUTS finds no end, however far it looks. -/
theorem putsBytes_none (m : Memory) (h : ∀ a, m.read a ≠ 0x0000#16) (fuel : Nat) (p : Word) : putsBytes m fuel p = none := by
  induction fuel generalizing p with
  | zero => rfl
  | succ fuel ih => rw [putsBytes_go m fuel (h p), ih]; rfl

/-- With no zero byte anywhere PUTSP finds no end. -/
theorem putspBytes_none (m : Memory) (h : ∀ a, lowByte (m.read a) ≠ 0x00#8 ∧ highByte (m.read a) ≠ 0x00#8) (fuel : Nat)
    (p : Word) : putspBytes m fuel p = none := by
  induction fuel generalizing p with
  | zero => rfl
  | succ fuel ih => rw [putspBytes_go m fuel (h p).1 (h p).2, ih]; rfl

/-! ### Memory after an instruction -/

/-- A TRAP's next state has the memory it started from (R233). -/
theorem trapNext_mem {v : BitVec 8} {s t : State} (h : TrapNext s v t) : t.mem = s.mem := by
  cases h <;> rfl

/-- An instruction leaves memory alone or writes one word of it. -/
theorem exec_mem {i : Instr} {s t : State} (h : exec i s = .next t) :
    t.mem = s.mem ∨ ∃ a v, t.mem = s.mem.write a v := by
  cases i with
  | trap v => exact .inl (trapNext_mem (execTrap_next h))
  | st sr off => cases h; exact .inr ⟨_, _, rfl⟩
  | sti sr off => cases h; exact .inr ⟨_, _, rfl⟩
  | str sr baseR off => cases h; exact .inr ⟨_, _, rfl⟩
  | br n z p off =>
    cases h
    refine .inl ?_
    split <;> rfl
  | _ => cases h; exact .inl rfl

/-- An instruction keeps memory in canonical form. -/
theorem exec_mem_wf {i : Instr} {s t : State} (h : exec i s = .next t) (hs : s.mem.wf = true) : t.mem.wf = true := by
  rcases exec_mem h with ht | ⟨a, v, ht⟩
  · rwa [ht]
  · rw [ht]
    exact write_wf _ _ _ hs

end Sys2Proof.Machine
end

