-- ==== Sys2Proof/Laws/Loader.lean ====
section
/-! SUPPORT. Loading images keeps memory in canonical form. -/

namespace Sys2Proof.Machine

theorem storeWords_wf (words : List Word) : ∀ (m : Memory) (a : Word), m.wf = true → (m.storeWords a words).wf = true := by
  induction words with
  | nil => exact fun _ _ h => h
  | cons w rest ih => exact fun m a h => ih _ _ (write_wf m a w h)

theorem loadImage_wf {m m' : Memory} {file : List Byte} (h : loadImage m file = some m') (hm : m.wf = true) :
    m'.wf = true := by
  unfold loadImage at h
  split at h
  · cases h
    exact hm
  · split at h
    · cases h
      exact storeWords_wf _ _ _ hm
    · cases h

theorem loadImages_wf (files : List (List Byte)) : ∀ {m m' : Memory}, loadImages m files = some m' → m.wf = true →
    m'.wf = true := by
  induction files with
  | nil => exact fun h hm => Option.some.inj h ▸ hm
  | cons file rest ih =>
    intro m m' h hm
    obtain ⟨m1, h1, h2⟩ := Option.bind_eq_some_iff.1 h
    exact ih h2 (loadImage_wf h1 hm)

end Sys2Proof.Machine
end

