-- ==== Sys2Proof/Laws/PerInstr.lean ====
section
/-! SUPPORT. Facts about every instruction as syntax, one lemma a constructor. -/

namespace Sys2Proof.Laws.Row

/-- The encoder's word matches the instruction's own row of spec/opcode_table.json. -/
def Statement (i : Instr) : Prop := rowMatches i.row (encode i) = true

/-- A row that tests the opcode only. -/
theorem opcode_row (op : BitVec 4) (rest : BitVec 12) :
    rowMatches (joinOp op 0x000#12, 0xF000#16) (joinOp op rest) = true := by
  have h : (0xF000#16 : Word) = joinOp (BitVec.allOnes 4) 0x000#12 := by decide
  simp only [rowMatches, h, and_joinOp, beq_iff_eq, BitVec.and_allOnes, BitVec.and_zero]

/-- A row that tests the opcode and bit 5. -/
theorem mode_row (op : BitVec 4) (hi mid : BitVec 3) {low bit : BitVec 6} (hl : low &&& 0b100000#6 = bit) :
    rowMatches (joinOp op (join3And3And6 0b000#3 0b000#3 bit), 0xF020#16) (joinOp op (join3And3And6 hi mid low)) = true := by
  have h : (0xF020#16 : Word) = joinOp (BitVec.allOnes 4) (join3And3And6 0b000#3 0b000#3 0b100000#6) := by decide
  simp only [rowMatches, h, and_joinOp, and_join6, beq_iff_eq, BitVec.and_allOnes, BitVec.and_zero, hl]

theorem lowReg_mode (r : Reg) : lowReg r &&& 0b100000#6 = 0b000000#6 := by
  revert r
  decide

theorem lowImm_mode (imm : Word) : lowImm imm &&& 0b100000#6 = 0b100000#6 := by
  unfold lowImm
  generalize imm.setWidth 5 = x
  revert x
  decide

theorem br (n z p : Bool) (off : Word) : Statement (.br n z p off) := opcode_row 0x0#4 _
theorem addReg (dr sr1 sr2 : Reg) : Statement (.addReg dr sr1 sr2) := mode_row 0x1#4 _ _ (lowReg_mode sr2)
theorem addImm (dr sr1 : Reg) (imm : Word) : Statement (.addImm dr sr1 imm) := mode_row 0x1#4 _ _ (lowImm_mode imm)
theorem ld (dr : Reg) (off : Word) : Statement (.ld dr off) := opcode_row 0x2#4 _
theorem st (sr : Reg) (off : Word) : Statement (.st sr off) := opcode_row 0x3#4 _

theorem jsr (off : Word) : Statement (.jsr off) := by
  have h : (0xF800#16 : Word) = joinOp (BitVec.allOnes 4) (0b1#1 ++ 0#11 : BitVec (1 + 11)) := by decide
  simp only [Statement, Instr.row, encode, rowMatches, h, and_joinOp, beq_iff_eq, BitVec.and_allOnes, joinJsr]
  rw [BitVec.and_append, BitVec.and_zero]
  decide

theorem jsrr (baseR : Reg) : Statement (.jsrr baseR) := by
  revert baseR
  unfold Statement
  decide

theorem andReg (dr sr1 sr2 : Reg) : Statement (.andReg dr sr1 sr2) := mode_row 0x5#4 _ _ (lowReg_mode sr2)
theorem andImm (dr sr1 : Reg) (imm : Word) : Statement (.andImm dr sr1 imm) := mode_row 0x5#4 _ _ (lowImm_mode imm)
theorem ldr (dr baseR : Reg) (off : Word) : Statement (.ldr dr baseR off) := opcode_row 0x6#4 _
theorem str (sr baseR : Reg) (off : Word) : Statement (.str sr baseR off) := opcode_row 0x7#4 _
theorem rti : Statement .rti := opcode_row 0x8#4 _
theorem not (dr sr : Reg) : Statement (.not dr sr) := opcode_row 0x9#4 _
theorem ldi (dr : Reg) (off : Word) : Statement (.ldi dr off) := opcode_row 0xA#4 _
theorem sti (sr : Reg) (off : Word) : Statement (.sti sr off) := opcode_row 0xB#4 _
theorem jmp (baseR : Reg) : Statement (.jmp baseR) := opcode_row 0xC#4 _
theorem res : Statement .res := opcode_row 0xD#4 _
theorem lea (dr : Reg) (off : Word) : Statement (.lea dr off) := opcode_row 0xE#4 _
theorem trap (vect : BitVec 8) : Statement (.trap vect) := opcode_row 0xF#4 _

end Sys2Proof.Laws.Row
end

