-- ==== Sys2Proof/Tests/Slice0.lean ====
section
/-! SUPPORT. Small tests. Expected values come from 95_test_vectors.md and the worked examples of the rules; each test's
comment names its vector. Then the witnesses that the hypotheses of the statements can be met. -/

namespace Sys2Proof.Tests

open Sys2Proof.Machine

/-! ### Ill-formed terms are refused (30_encoding.md R94) -/

theorem test_wf_imm5_too_big : (Instr.addImm 0 0 0x0010#16).wf = false := by decide
theorem test_wf_imm5_least : (Instr.andImm 0 0 0xFFF0#16).wf = true := by decide
theorem test_wf_imm5_too_small : (Instr.andImm 0 0 0xFFEF#16).wf = false := by decide
theorem test_wf_offset6_too_big : (Instr.ldr 0 0 0x0020#16).wf = false := by decide
theorem test_wf_offset6_too_small : (Instr.str 0 0 0xFFDF#16).wf = false := by decide
theorem test_wf_pcoffset9_too_big :
    (Instr.br true true true 0x0100#16).wf = false ∧ (Instr.ld 0 0x0100#16).wf = false ∧
    (Instr.ldi 0 0x0100#16).wf = false ∧ (Instr.lea 0 0x0100#16).wf = false ∧
    (Instr.st 0 0xFEFF#16).wf = false ∧ (Instr.sti 0 0xFEFF#16).wf = false := by decide
theorem test_wf_pcoffset11_too_big : (Instr.jsr 0x0400#16).wf = false := by decide

/-! ### Words written out from the formats of R99 -/

/-- ADD R3,R1,R2 = 0x1642. -/
theorem test_decode_addReg : decode 0b0001_011_001_000_010#16 = .addReg 3 1 2 := by decide
/-- 0x1018: bits [4:3] of register mode are ignored. -/
theorem test_decode_addReg_ignored : decode 0b0001_000_000_011_000#16 = .addReg 0 0 0 := by decide
/-- ADD R1,R1,#-1 = 0x127F. -/
theorem test_decode_addImm : decode 0b0001_001_001_1_11111#16 = .addImm 1 1 0xFFFF#16 := by decide
/-- AND R3,R1,R2 = 0x5642. -/
theorem test_decode_andReg : decode 0b0101_011_001_000_010#16 = .andReg 3 1 2 := by decide
/-- AND R2,R2,#0 = 0x54A0. -/
theorem test_decode_andImm : decode 0b0101_010_010_1_00000#16 = .andImm 2 2 0x0000#16 := by decide
/-- 0x9000 is NOT R0,R0 as 0x903F is. -/
theorem test_decode_not : decode 0b1001_000_000_000000#16 = .not 0 0 ∧ decode 0b1001_000_000_111111#16 = .not 0 0 := by
  decide
/-- LD R5,#-1 = 0x2BFF. -/
theorem test_decode_ld : decode 0b0010_101_111111111#16 = .ld 5 0xFFFF#16 := by decide
/-- LDI R2,#1 = 0xA401. -/
theorem test_decode_ldi : decode 0b1010_010_000000001#16 = .ldi 2 0x0001#16 := by decide
/-- LDR R2,R3,#-2 = 0x64FE. -/
theorem test_decode_ldr : decode 0b0110_010_011_111110#16 = .ldr 2 3 0xFFFE#16 := by decide
/-- LEA R1,#2 = 0xE202. -/
theorem test_decode_lea : decode 0b1110_001_000000010#16 = .lea 1 0x0002#16 := by decide
/-- ST R3,#5 = 0x3605. -/
theorem test_decode_st : decode 0b0011_011_000000101#16 = .st 3 0x0005#16 := by decide
/-- STI R4,#1 = 0xB801. -/
theorem test_decode_sti : decode 0b1011_100_000000001#16 = .sti 4 0x0001#16 := by decide
/-- STR R5,R6,#3 = 0x7B83. -/
theorem test_decode_str : decode 0b0111_101_110_000011#16 = .str 5 6 0x0003#16 := by decide
/-- BRnp #-256 = 0x0B00. -/
theorem test_decode_br : decode 0b0000_1_0_1_100000000#16 = .br true false true 0xFF00#16 := by decide
/-- 0xCE80 is JMP R2 as 0xC080 is. -/
theorem test_decode_jmp : decode 0b1100_111_010_000000#16 = .jmp 2 ∧ decode 0b1100_000_010_000000#16 = .jmp 2 := by decide
/-- JSR #-1024 = 0x4C00 and JSR #1023 = 0x4BFF. -/
theorem test_decode_jsr : decode 0b0100_1_10000000000#16 = .jsr 0xFC00#16 ∧ decode 0b0100_1_01111111111#16 = .jsr 0x03FF#16 := by
  decide
/-- JSRR R7 = 0x41C0. -/
theorem test_decode_jsrr : decode 0b0100_0_00_111_000000#16 = .jsrr 7 := by decide
/-- 0xF125 is TRAP x25. -/
theorem test_decode_trap : decode 0b1111_0001_00100101#16 = .trap 0x25#8 := by decide
/-- 0x8ABC is RTI, 0xDFFF is RES. -/
theorem test_decode_reserved : decode 0x8ABC#16 = .rti ∧ decode 0xDFFF#16 = .res := by decide
/-- The first word of big-endian bytes, and a cut-off word. -/
theorem test_decode_bytes : decodeBytes [0xF0#8, 0x25#8, 0x00#8] = .ok (.trap 0x25#8, [0x00#8]) ∧
    decodeBytes [0xF0#8] = .error .truncatedWord := by decide
/-- The standard assembler's words (R107): RET and HALT. -/
theorem test_encode : encode (.jmp 7) = 0xC1C0#16 ∧ encode (.trap 0x25#8) = 0xF025#16 ∧ encode (.not 1 2) = 0x92BF#16 := by
  decide

/-! ### One step -/

/-- The reset state with the word `w` at 0x3000, registers and cells as listed. -/
def start (w : Word) (regs : List (Reg × Word)) (cells : List (Word × Word)) : State :=
  let s := regs.foldl (fun s r => s.setReg r.1 r.2) (State.reset.store 0x3000#16 w)
  cells.foldl (fun s c => s.store c.1 c.2) s

/-- An input device whose first answers are `known`. -/
def given (known : List InAnswer) : InDevice := { known := known, served := 0 }

/-- `p` holds of the state one step leads to. -/
def after (s : State) (p : State → Bool) : Bool :=
  match step s with
  | .next t => p t
  | .fault _ => false
  | .refused _ => false

/-- V-ADD-1. -/
theorem test_addReg : after (start 0x1642#16 [(1, 3#16), (2, 4#16)] [])
    (fun t => t.reg 3 == 7#16 && t.cond == .p && t.pc == 0x3001#16) = true := by decide
/-- V-ADD-5. -/
theorem test_addReg_wraps : after (start 0x1482#16 [(2, 0x8000#16)] []) (fun t => t.reg 2 == 0#16 && t.cond == .z) = true := by
  decide
/-- V-ADD-2. -/
theorem test_addImm_overflow : after (start 0x1261#16 [(1, 0x7FFF#16)] [])
    (fun t => t.reg 1 == 0x8000#16 && t.cond == .n) = true := by decide
/-- V-ADD-4. -/
theorem test_addImm_negative : after (start 0x1270#16 [] []) (fun t => t.reg 1 == 0xFFF0#16 && t.cond == .n) = true := by
  decide
/-- V-AND-3. -/
theorem test_andReg : after (start 0x5642#16 [(1, 0x0F0F#16), (2, 0x00FF#16)] [])
    (fun t => t.reg 3 == 0x000F#16 && t.cond == .p) = true := by decide
/-- V-AND-2. -/
theorem test_andImm : after (start 0x507F#16 [(1, 0x8001#16)] []) (fun t => t.reg 0 == 0x8001#16 && t.cond == .n) = true := by
  decide
/-- V-NOT-1. -/
theorem test_not : after (start 0x92BF#16 [(2, 0x00FF#16)] []) (fun t => t.reg 1 == 0xFF00#16 && t.cond == .n) = true := by
  decide
/-- V-LD-2: the LD loads its own word. -/
theorem test_ld : after (start 0x2BFF#16 [] []) (fun t => t.reg 5 == 0x2BFF#16 && t.cond == .p) = true := by decide
/-- V-LD-4: the address wraps below 0. -/
theorem test_ld_wraps : after ((start 0x0000#16 [(2, 5#16)] [(0x0000#16, 0x2500#16)]).setPc 0x0000#16)
    (fun t => t.reg 2 == 0#16 && t.cond == .z) = true := by decide
/-- V-LDI-2. -/
theorem test_ldi : after (start 0xA401#16 [] [(0x3002#16, 0x4000#16), (0x4000#16, 0xFFFE#16)])
    (fun t => t.reg 2 == 0xFFFE#16 && t.cond == .n) = true := by decide
/-- V-LDR-2: the base is overwritten. -/
theorem test_ldr_base : after (start 0x66C0#16 [(3, 0x4000#16)] [(0x4000#16, 0x1234#16)])
    (fun t => t.reg 3 == 0x1234#16 && t.cond == .p) = true := by decide
/-- V-LEA-1 (90_conflicts.md C2). -/
theorem test_lea : after (start 0xE202#16 [] []) (fun t => t.reg 1 == 0x3003#16 && t.cond == .p) = true := by decide
/-- V-ST-1. -/
theorem test_st : after ((start 0x3605#16 [(3, 0x1234#16)] []).setCC 0x8000#16)
    (fun t => t.mem.read 0x3006#16 == 0x1234#16 && t.cond == .n) = true := by decide
/-- V-STI-1. -/
theorem test_sti : after (start 0xB801#16 [(4, 0x00AA#16)] [(0x3002#16, 0x5000#16)])
    (fun t => t.mem.read 0x5000#16 == 0x00AA#16 && t.mem.read 0x3002#16 == 0x5000#16) = true := by decide
/-- V-STR-2: the stored register is the base. -/
theorem test_str_base : after (start 0x7DBF#16 [(6, 0x4000#16)] []) (fun t => t.mem.read 0x3FFF#16 == 0x4000#16) = true := by
  decide
/-- A store of zero leaves no entry in the list (canonical form). -/
theorem test_store_zero_unlisted : ((State.reset.store 0x4000#16 0x1200#16).store 0x4000#16 0x0000#16).mem = State.reset.mem := by
  decide
/-- V-BR-6: the reset COND is Z. -/
theorem test_br_taken : after (start 0x0401#16 [] []) (fun t => t.pc == 0x3002#16) = true := by decide
/-- V-BR-1 with COND = N. -/
theorem test_br_untaken : after ((start 0x0403#16 [] []).setCC 0x8000#16) (fun t => t.pc == 0x3001#16) = true := by decide
/-- V-JMP-1. -/
theorem test_jmp : after (start 0xC080#16 [(2, 0x4000#16)] []) (fun t => t.pc == 0x4000#16 && t.reg 7 == 0#16) = true := by
  decide
/-- V-JSR-2. -/
theorem test_jsr : after (start 0x4C00#16 [] []) (fun t => t.pc == 0x2C01#16 && t.reg 7 == 0x3001#16) = true := by decide
/-- V-JSRR-2: BaseR is read before R7 is written. -/
theorem test_jsrr_r7 : after (start 0x41C0#16 [(7, 0x5000#16)] []) (fun t => t.pc == 0x5000#16 && t.reg 7 == 0x3001#16) = true := by
  decide
/-- V-RES-2. -/
theorem test_res : after (start 0xDFFF#16 [] [])
    (fun t => t.status == .faulted .reservedOpcode 0x3000#16 0xDFFF#16 && t.pc == 0x3001#16) = true := by decide
/-- V-RTI-1. -/
theorem test_rti : after (start 0x8000#16 [] [])
    (fun t => t.status == .faulted .rtiUnimplemented 0x3000#16 0x8000#16 && t.reg 7 == 0#16) = true := by decide

/-! ### The trap routines: two tests of a failing TRAP, and one or two a routine -/

/-- V-TRAP-BAD-1. -/
theorem test_trap_unknown : after (start 0xF026#16 [] [])
    (fun t => t.status == .faulted .unknownTrapVector 0x3000#16 0xF026#16 && t.reg 7 == 0x3001#16 && t.pc == 0x3001#16) = true := by
  decide
/-- V-GETC-2: zero-extended, no echo. -/
theorem test_getc : after { start 0xF020#16 [(0, 0x1200#16)] [] with input := given [.byte 0xFF#8] }
    (fun t => t.reg 0 == 0x00FF#16 && t.out == [] && t.reg 7 == 0x3001#16 && t.cond == .z) = true := by decide
/-- V-GETC-3. -/
theorem test_getc_failure : after { start 0xF020#16 [(0, 0x1200#16)] [] with input := given [.failure] }
    (fun t => t.status == .faulted .inputDeviceError 0x3000#16 0xF020#16 && t.reg 0 == 0x1200#16 && t.reg 7 == 0x3001#16) = true := by
  decide
/-- V-GETC-4: a hold changes nothing of the core, R7 and pc included. -/
theorem test_getc_hold : after { start 0xF020#16 [(7, 9#16)] [] with input := given [.notYet] }
    (fun t => t.toCoreState == (start 0xF020#16 [(7, 9#16)] []).toCoreState) = true := by decide
/-- V-OUT-1. -/
theorem test_out : after (start 0xF021#16 [(0, 0x1241#16)] []) (fun t => t.out == [0x41#8] && t.reg 0 == 0x1241#16) = true := by
  decide
/-- V-PUTS-2: only a zero word ends the string. -/
theorem test_puts : after (start 0xF022#16 [(0, 0x4000#16)] [(0x4000#16, 0x4100#16)]) (fun t => t.out == [0x00#8]) = true := by
  decide
/-- V-PUTS-3: the scan wraps. -/
theorem test_puts_wraps : after (start 0xF022#16 [(0, 0xFFFF#16)] [(0xFFFF#16, 0x0041#16)]) (fun t => t.out == [0x41#8]) = true := by
  decide
/-- V-IN-1, but for the bytes of `out`, which hold the open prompt. -/
theorem test_in : after { start 0xF023#16 [] [] with input := given [.byte 0x41#8] } (fun t => t.reg 0 == 0x0041#16) = true := by decide
/-- V-IN-1, the bytes of `out`: the prompt, then the echo. -/
theorem test_in_out : execTrap 0x23#8 { State.reset with input := given [.byte 0x41#8] } =
    .next { { State.reset with input := { known := [], served := 1 }, out := [] ++ Config.inPrompt ++ [0x41#8] }.link with
      regs := (State.reset.link.regs.set 0 0x0041#16) } := rfl
/-- V-PUTSP-1. -/
theorem test_putsp : after (start 0xF024#16 [(0, 0x4000#16)] [(0x4000#16, 0x6548#16), (0x4001#16, 0x0079#16)])
    (fun t => t.out == [0x48#8, 0x65#8, 0x79#8]) = true := by decide
/-- V-PUTSP-3: a zero low byte ends the string. -/
theorem test_putsp_low_zero : after (start 0xF024#16 [(0, 0x4000#16)] [(0x4000#16, 0x4100#16)]) (fun t => t.out == []) = true := by
  decide
/-- V-HALT-2: bits [11:8] of TRAP are ignored. -/
theorem test_halt : after (start 0xF125#16 [] []) (fun t => t.status == .halted && t.reg 7 == 0x3001#16 && t.pc == 0x3001#16) = true := by
  decide
/-- V-AFTER-HALT. -/
theorem test_after_halt : step State.reset.halt = .fault .runEnded := rfl
/-- V-FETCH-WRAP. -/
theorem test_fetch_wraps : after (State.reset.setPc 0xFFFF#16) (fun t => t.pc == 0x0000#16) = true := by decide
/-- withFetchWord places the word where the next step fetches. -/
theorem test_withFetchWord : after (State.reset.withFetchWord 16 0x1025) (fun t => t.reg 0 == 5#16 && t.cond == .p) = true := by decide
/-- The loader: a big-endian image at 0x4000 of two words (70_reset_and_hazards.md R302). -/
theorem test_loader : (loadImage State.reset.mem [0x40#8, 0x00#8, 0x00#8, 0x07#8, 0xFF#8, 0xFD#8]).map
    (fun m => (m.read 0x4000#16, m.read 0x4001#16)) = some (0x0007#16, 0xFFFD#16) := by decide

/-! ### Witnesses: states and operands that meet the hypotheses of the statements -/

/-- Memory with the byte 1 under every key: no word is zero and no byte of one is. -/
def fullMemory : Memory := { cells := (List.range 131072).map (fun k => (k, 0x01#8)) }

theorem cellByte_map_one (l : List Nat) (k : Nat) (h : k ∈ l) : cellByte (l.map (fun j => (j, 0x01#8))) k = 0x01#8 := by
  induction l with
  | nil => cases h
  | cons j rest ih =>
    simp only [List.map_cons, cellByte]
    split
    · rfl
    · next hj => exact ih ((List.mem_cons.1 h).resolve_left fun hk => hj hk.symm)

theorem fullMemory_read (a : Word) : fullMemory.read a = 0x0101#16 := by
  have := a.isLt
  rw [Memory.read, fullMemory, cellByte_map_one _ _ (List.mem_range.2 (by simp only [hiKey]; omega)),
    cellByte_map_one _ _ (List.mem_range.2 (by simp only [loKey]; omega))]
  decide

/-- The hypotheses of PUTS's and PUTSP's divergence (PutsWritesUpToTheZeroWord, StringsDivergeWithoutTerminator). -/
theorem witness_no_terminator (a : Word) : fullMemory.read a ≠ 0x0000#16 ∧
    (fullMemory.read a).toNat % 256 ≠ 0 ∧ (fullMemory.read a).toNat / 256 ≠ 0 := by
  rw [fullMemory_read]
  decide

theorem puts_diverges (s : State) (h : ∀ a, s.mem.read a ≠ 0x0000#16) : exec (.trap 0x22#8) s = .fault .stringDiverges :=
  (execTrap_puts s).trans (by rw [putsBytes_none s.mem h])

theorem putsp_diverges (s : State) (h : ∀ a, lowByte (s.mem.read a) ≠ 0x00#8 ∧ highByte (s.mem.read a) ≠ 0x00#8) :
    exec (.trap 0x24#8) s = .fault .stringDiverges :=
  (execTrap_putsp s).trans (by rw [putspBytes_none s.mem h])

/-- InstructionsAlwaysComplete and StringsDivergeWithoutTerminator, PUTS: over that memory it finds no end. -/
theorem witness_exec_fault : ∃ s : State, exec (.trap 0x22#8) s = .fault .stringDiverges :=
  ⟨{ State.reset with mem := fullMemory }, puts_diverges _ fun a => (witness_no_terminator a).1⟩

/-- The same of PUTSP. -/
theorem witness_exec_fault_putsp : ∃ s : State, exec (.trap 0x24#8) s = .fault .stringDiverges :=
  ⟨{ State.reset with mem := fullMemory }, putsp_diverges _ fun a => by
    show lowByte (fullMemory.read a) ≠ 0x00#8 ∧ highByte (fullMemory.read a) ≠ 0x00#8
    rw [fullMemory_read]
    decide⟩

/-- SignExtensionKeepsTheValue: the narrowest and the widest field. -/
theorem witness_sext : 1 ≤ 1 ∧ 1 ≤ 16 ∧ (sext 0b1#1).getLsbD 15 = true ∧ (sext 0x8000#16).toInt = -32768 := by decide

/-- DecodeOfEncode: well-formed terms at the ends of each field's range (R94). -/
theorem witness_wf : (Instr.addImm 7 0 0x000F#16).wf = true ∧ (Instr.andImm 0 7 0xFFF0#16).wf = true ∧
    (Instr.ldr 0 7 0x001F#16).wf = true ∧ (Instr.str 0 7 0xFFE0#16).wf = true ∧
    (Instr.br true false true 0x00FF#16).wf = true ∧ (Instr.ld 7 0xFF00#16).wf = true ∧
    (Instr.jsr 0x03FF#16).wf = true ∧ (Instr.jsr 0xFC00#16).wf = true ∧ (Instr.trap 0xFF#8).wf = true := by decide

/-- StepRunsTheDecodedInstruction, ZeroMemoryRunsForever, FaultTable: the reset state runs over zero memory. -/
theorem witness_running : State.reset.status = .running ∧ decode (State.reset.mem.read State.reset.pc) = .br false false false 0#16 ∧
    ∀ a, State.reset.mem.read a = 0x0000#16 := ⟨rfl, by decide, fun a => read_empty a⟩

/-- EndedRunTakesNoStep: a halted and a faulted state. -/
theorem witness_ended : State.reset.halt.status ≠ .running ∧ (State.reset.raise .reservedOpcode).status ≠ .running := by decide

/-- CondWritersAndReaders: a flag writer, another instruction, neither a BR, and a BR, each with a next state. -/
theorem witness_cond : (∃ t, exec (.lea 0 0x8000#16) State.reset = .next t) ∧ (∃ t, exec (.jmp 7) State.reset = .next t) ∧
    (∃ t, exec (.br true true true 1#16) State.reset = .next t) ∧ ∀ n z p off, Instr.lea 0 0x8000#16 ≠ .br n z p off :=
  ⟨⟨_, rfl⟩, ⟨_, rfl⟩, ⟨_, rfl⟩, fun _ _ _ _ h => by cases h⟩

/-- OnlyTheStoredWordChanges: a store and the word above its address, and an instruction that stores nothing. -/
theorem witness_stored : (∃ t, exec (.st 0 0xFFFF#16) State.reset = .next t) ∧
    storeAddr (.st 0 0xFFFF#16) State.reset ≠ some 0x3000#16 ∧
    (∃ t, exec (.ld 0 0#16) State.reset = .next t) ∧ storeAddr (.ld 0 0#16) State.reset ≠ some 0x3000#16 :=
  ⟨⟨_, rfl⟩, by decide, ⟨_, rfl⟩, by decide⟩

/-- StoresAreSeenByLaterFetches, first clause: V-ST-2, the store to the next instruction's address. -/
theorem witness_store_next : ∃ t, exec (.st 0 0#16) (start 0x3000#16 [(0, 0xF025#16)] []).advance = .next t ∧
    storeAddr (.st 0 0#16) (start 0x3000#16 [(0, 0xF025#16)] []).advance = some 0x3001#16 ∧
    t.status = .running ∧ t.pc = 0x3001#16 := ⟨_, rfl, by decide, rfl, by decide⟩

/-- StoresAreSeenByLaterFetches, second clause: ST R0,#-1 stores to its own address. -/
theorem witness_store_self : (start 0x31FF#16 [(0, 0xF025#16)] []).status = .running ∧
    decode ((start 0x31FF#16 [(0, 0xF025#16)] []).mem.read (start 0x31FF#16 [(0, 0xF025#16)] []).pc) = .st 0 0xFFFF#16 ∧
    storeAddr (.st 0 0xFFFF#16) (start 0x31FF#16 [(0, 0xF025#16)] []).advance = some 0x3000#16 := by decide

/-- IndirectRoundTrip: V-STI-2 (the target is not the pointer cell) and V-STI-3 (it is), each with the LDI's state. -/
theorem witness_round_trip : ∀ a ∈ [0x5000#16, 0x3003#16],
    let s := (start 0xB802#16 [(4, 0x00AA#16)] [(0x3003#16, a)]).advance
    s.pc + 0x0002#16 = 0x3003#16 ∧ s.mem.read 0x3003#16 = a ∧
    ∃ t, exec (.sti 4 0x0002#16) s = .next t ∧ t.advance.pc + 0x0001#16 = 0x3003#16 ∧ t.advance.mem = t.mem := by
  intro a ha
  simp only [List.mem_cons, List.not_mem_nil, or_false] at ha
  rcases ha with rfl | rfl
  · exact ⟨by decide, by decide, _, rfl, by decide, rfl⟩
  · exact ⟨by decide, by decide, _, rfl, by decide, rfl⟩

/-- IndirectRoundTrip, the value is the pointer's own address: s.reg sr = p. -/
theorem witness_round_trip_self : (start 0xB802#16 [(4, 0x3003#16)] [(0x3003#16, 0x3003#16)]).reg 4 = 0x3003#16 ∧
    (start 0xB802#16 [(4, 0x3003#16)] [(0x3003#16, 0x3003#16)]).mem.read 0x3003#16 = 0x3003#16 := by decide

/-- BranchTakenOnMatchingFlag: each disjunct, and none of them with two condmask bits set. -/
theorem witness_branch : (State.reset.setCC 0x8000#16).cond = .n ∧ (State.reset.setCC 0x0000#16).cond = .z ∧
    (State.reset.setCC 0x7FFF#16).cond = .p ∧ ¬(State.reset.cond = .n ∨ State.reset.cond = .p) := by decide

/-- OnlyControlTransfersMovePc: a jump that moves pc, and a hold that takes the increment back. -/
theorem witness_pc_moves : (∃ t, exec (.jmp 0) State.reset = .next t ∧ t.pc ≠ State.reset.pc) ∧
    (∃ t, exec (.trap 0x20#8) { State.reset with input := given [.notYet] } = .next t ∧ t.pc ≠ State.reset.pc) :=
  ⟨⟨_, rfl, by decide⟩, ⟨_, rfl, by decide⟩⟩

/-- LinkRegisterWriters: a JSR, a JSRR, a TRAP that is no hold, and an instruction with DR = 7, each changing R7. -/
theorem witness_link : (∃ t, exec (.jsr 0#16) State.reset = .next t ∧ t.reg 7 ≠ State.reset.reg 7) ∧
    (∃ t, exec (.jsrr 7) State.reset = .next t ∧ t.reg 7 ≠ State.reset.reg 7) ∧
    (∃ t, exec (.trap 0x25#8) State.reset = .next t ∧ t.reg 7 ≠ State.reset.reg 7) ∧
    (∃ t, exec (.lea 7 0#16) State.reset = .next t ∧ t.reg 7 ≠ State.reset.reg 7) :=
  ⟨⟨_, rfl, by decide⟩, ⟨_, rfl, by decide⟩, ⟨_, rfl, by decide⟩, ⟨_, rfl, by decide⟩⟩

/-- AtMostOneRegisterChanges: GETC changes R0 and R7. -/
theorem witness_two_registers : ∃ t, exec (.trap 0x20#8) { State.reset with input := given [.byte 0x41#8] } = .next t ∧
    (0 : Reg) < 7 ∧ t.reg 0 ≠ State.reset.reg 0 ∧ t.reg 7 ≠ State.reset.reg 7 := ⟨_, rfl, by decide, by decide, by decide⟩

/-- GetcReadsOneCharacter, InPromptsReadsAndEchoes, FaultTable: the first and last byte, and a failure. -/
theorem witness_input : ({ State.reset with input := given [.byte 0x00#8] } : State).answer = .byte 0x00#8 ∧
    ({ State.reset with input := given [.byte 0xFF#8, .notYet] } : State).answer = .byte 0xFF#8 ∧
    ({ State.reset with input := given [.failure] } : State).answer = .failure := ⟨rfl, rfl, rfl⟩

/-- With no answer known, the reset state's device answers as the open INPUT does. -/
theorem test_input_open : State.reset.answer = Config.input 0 := rfl

/-- PutsWritesUpToTheZeroWord, n = 0: the empty string. -/
theorem witness_puts_empty : State.reset.mem.read (State.reset.reg 0 + BitVec.ofNat 16 0) = 0x0000#16 := by decide

theorem low_addresses (k : Nat) (hk : k < 65535) : (0x0000#16 + BitVec.ofNat 16 k : Word) ≠ 0xFFFF#16 := by
  intro h
  have := congrArg BitVec.toNat h
  simp at this
  omega

theorem only_zero_at_top (m : Memory) (h : ∀ a, m.read a ≠ 0x0000#16) (b : Word) (hb : b = 0xFFFF#16) :
    (∀ k, k < 65535 → (m.write b 0x0000#16).read (0x0000#16 + BitVec.ofNat 16 k) ≠ 0x0000#16) ∧
    (m.write b 0x0000#16).read b = 0x0000#16 := by
  refine ⟨fun k hk => ?_, read_write_same _ _ _⟩
  rw [read_write_other _ _ (hb ▸ low_addresses k hk)]
  exact h _

theorem top_address : (0x0000#16 + BitVec.ofNat 16 65535 : Word) = 0xFFFF#16 := by decide

/-- PutsWritesUpToTheZeroWord, n = 65535: the longest string, in memory whose only zero word is at 0xFFFF. -/
theorem witness_puts_longest : ∃ m : Memory,
    (∀ k, k < 65535 → m.read (0x0000#16 + BitVec.ofNat 16 k) ≠ 0x0000#16) ∧
    m.read (0x0000#16 + BitVec.ofNat 16 65535) = 0x0000#16 :=
  ⟨_, only_zero_at_top fullMemory (fun a => (witness_no_terminator a).1) _ top_address⟩

/-- PutspWritesUpToTheZeroByte: n = 0 with a zero low byte, and n = 1 with a zero high byte (V-PUTSP-3, V-PUTSP-1). -/
theorem witness_putsp :
    lowByte ((start 0xF024#16 [(0, 0x4000#16)] [(0x4000#16, 0x4100#16)]).mem.read 0x4000#16) = 0x00#8 ∧
    (let m := (start 0xF024#16 [(0, 0x4000#16)] [(0x4000#16, 0x6548#16), (0x4001#16, 0x0079#16)]).mem
     lowByte (m.read 0x4000#16) ≠ 0x00#8 ∧ highByte (m.read 0x4000#16) ≠ 0x00#8 ∧
     lowByte (m.read 0x4001#16) ≠ 0x00#8 ∧ highByte (m.read 0x4001#16) = 0x00#8) := by decide

/-- PutspWritesUpToTheZeroByte, n = 65535: the longest string, in the memory of `witness_puts_longest`. -/
theorem witness_putsp_longest : ∃ m : Memory,
    (∀ k, k < 65535 → lowByte (m.read (0x0000#16 + BitVec.ofNat 16 k)) ≠ 0x00#8 ∧
      highByte (m.read (0x0000#16 + BitVec.ofNat 16 k)) ≠ 0x00#8) ∧
    m.read (0x0000#16 + BitVec.ofNat 16 65535) = 0x0000#16 := by
  refine ⟨fullMemory.write 0xFFFF#16 0x0000#16, fun k hk => ?_, ?_⟩
  · rw [read_write_other _ _ (low_addresses k hk), fullMemory_read]
    decide
  · rw [top_address, read_write_same]

/-- UnknownVectorFaultsAfterLink, TrapRomNumbersSixRoutines: the vectors at the ends of the ranges. -/
theorem witness_vectors : romValid 0x20#8 = true ∧ romValid 0x25#8 = true ∧ romValid 0x1F#8 = false ∧ (0x00#8).toNat < 0x20 ∧ (0x1F#8).toNat < 0x20 ∧ 0x25 < (0x26#8).toNat ∧ 0x25 < (0xFF#8).toNat := by
  decide

/-- TrapFrame, TrapsDoNotReadATableInMemory: OUT, and a hold. -/
theorem witness_trap_next : (∃ t, exec (.trap 0x21#8) State.reset = .next t) ∧ (0x21#8 : BitVec 8) ≠ 0x22#8 ∧
    (0x21#8 : BitVec 8) ≠ 0x24#8 ∧ 
    (∃ t, exec (.trap 0x23#8) { State.reset with input := given [.notYet] } = .next t) :=
  ⟨⟨_, rfl⟩, by decide, by decide, ⟨_, rfl⟩⟩

/-- InputHoldChangesNothing: GETC or IN at pc, the device answering 'not yet'. -/
theorem witness_hold : (start 0xF020#16 [] []).status = .running ∧
    ({ start 0xF023#16 [] [] with input := given [.notYet] } : State).answer = .notYet := ⟨rfl, rfl⟩

theorem witness_hold_words : decode ((start 0xF020#16 [] []).mem.read 0x3000#16) = .trap 0x20#8 ∧
    decode ((start 0xF023#16 [] []).mem.read 0x3000#16) = .trap 0x23#8 := by decide

/-- DevicesMoveOnlyInTraps, FaultsArePrecise, StepKeepsInvariant: steps to a running, an output-writing and a faulted state. -/
theorem witness_steps : (∃ t, step State.reset = .next t ∧ Inv State.reset) ∧
    (∃ t, step (start 0xF021#16 [] []) = .next t ∧ t.out ≠ (start 0xF021#16 [] []).out) ∧
    (∃ t, step (start 0xD000#16 [] []) = .next t ∧ t.status = .faulted .reservedOpcode 0x3000#16 0xD000#16) :=
  ⟨⟨_, rfl, rfl, trivial⟩, ⟨_, rfl, by decide⟩, ⟨_, rfl, by decide⟩⟩

/-- ReservedOpcodesFault: the first and last word of each opcode. -/
theorem witness_reserved : (0xD000#16).toNat / 4096 = 0xD ∧ (0xDFFF#16).toNat / 4096 = 0xD ∧
    (0x8000#16).toNat / 4096 = 0x8 ∧ (0x8FFF#16).toNat / 4096 = 0x8 ∧ (start 0xDFFF#16 [] []).status = .running := by decide

/-- LoaderStoresContiguously: an image that ends at 0xFFFF, a word and an address beside it, and files that do not parse. -/
theorem witness_loader : (0xFFFF#16).toNat + [0x1234#16].length ≤ 65536 ∧ 0 < [0x1234#16].length ∧
    (0xFFFE#16).toNat < (0xFFFF#16).toNat ∧ [0x30#8].length % 2 = 1 ∧ ([] : List Byte) = [] := by decide

/-- LaunchMeetsInvariant: a canonical memory that is not the empty one. -/
theorem witness_launch : (State.reset.store 0x3000#16 0x1025#16).mem.wf = true ∧
    (State.reset.store 0x3000#16 0x1025#16).mem ≠ State.reset.mem := by decide

end Sys2Proof.Tests
end

section
/-! Sign extension bit by bit and as a number (00_scope.md R12). The signed value is `sext_toInt`. -/

namespace Sys2Proof

theorem getLsbD_sext_of_lt {n i : Nat} (hn : n ≤ 16) (v : BitVec n) (hi : i < n) :
    (sext v).getLsbD i = v.getLsbD i := by
  have hi' : i < 16 := hi.trans_le hn
  rw [sext, BitVec.getLsbD_signExtend, if_pos hi, decide_eq_true hi', Bool.true_and]

theorem getLsbD_sext_of_le {n i : Nat} (v : BitVec n) (hi : n ≤ i) (hi' : i < 16) :
    (sext v).getLsbD i = v.getLsbD (n - 1) := by
  rw [sext, BitVec.getLsbD_signExtend, if_neg hi.not_gt, decide_eq_true hi', Bool.true_and, BitVec.msb_eq_getLsbD_last]

theorem toNat_sext {n : Nat} (hn : n ≤ 16) (v : BitVec n) :
    (sext v).toNat = if v.getLsbD (n - 1) then v.toNat + (65536 - 2 ^ n) else v.toNat := by
  have hw : (v.setWidth 16).toNat = v.toNat := BitVec.toNat_setWidth_of_le hn
  rw [sext, BitVec.toNat_signExtend, hw, BitVec.msb_eq_getLsbD_last]
  split <;> rfl

/-- Settles O3: the low bits, the copied top bit, the signed value and R12's formula, a lemma each. -/
theorem signExtensionKeepsTheValue : Obligations.SignExtensionKeepsTheValue :=
  fun _ v _ hn => ⟨fun _ => getLsbD_sext_of_lt hn v, fun _ => getLsbD_sext_of_le v, sext_toInt hn v, toNat_sext hn v⟩

end Sys2Proof
end

section
/-! What an instruction can do, by families, and from it the rules of 10_state.md: who writes COND and who reads it, who
moves pc, which registers an instruction changes, and when the device streams move. -/

namespace Sys2Proof.Machine

/-! ### What an instruction can do, said once -/

/-- Every way an instruction answers a next state, by families: the value of a result, and the value and address of a
store, are left to the statements about the single instructions. -/
inductive ExecNext (s : State) : Instr → State → Prop where
  | branch {n z p : Bool} {off : Word} (h : branchTaken n z p s.cond = true) :
    ExecNext s (.br n z p off) (s.setPc (eaPcRelative s off))
  | noBranch {n z p : Bool} {off : Word} (h : branchTaken n z p s.cond ≠ true) : ExecNext s (.br n z p off) s
  | jump {baseR : Reg} : ExecNext s (.jmp baseR) (s.setPc (s.reg baseR))
  | call {off : Word} : ExecNext s (.jsr off) (s.link.setPc (eaPcRelative s off))
  | callReg {baseR : Reg} : ExecNext s (.jsrr baseR) (s.link.setPc (s.reg baseR))
  | result {i : Instr} {dr : Reg} {v : Word} (h : flagWriter i = some dr) : ExecNext s i (s.setResult dr v)
  | store {i : Instr} {a v : Word} (h : storeAddr i s = some a) : ExecNext s i (s.store a v)
  | reserved : ExecNext s .res (s.raise .reservedOpcode)
  | rti : ExecNext s .rti (s.raise .rtiUnimplemented)
  | trap {v : BitVec 8} {t : State} (h : TrapNext s v t) : ExecNext s (.trap v) t

theorem exec_next {i : Instr} {s t : State} (h : exec i s = .next t) : ExecNext s i t := by
  cases i with
  | br n z p off =>
    cases h
    split
    · exact .branch ‹_›
    · exact .noBranch ‹_›
  | jmp baseR => cases h; exact .jump
  | jsr off => cases h; exact .call
  | jsrr baseR => cases h; exact .callReg
  | st | sti | str => cases h; exact .store rfl
  | res => cases h; exact .reserved
  | rti => cases h; exact .rti
  | trap v => exact .trap (execTrap_next h)
  | addReg | addImm | andReg | andImm | not | ld | ldi | ldr | lea => cases h; exact .result rfl

theorem flagWriter_of_storeAddr {i : Instr} {s : State} {a : Word} (h : storeAddr i s = some a) :
    flagWriter i = none := by
  cases i with
  | st | sti | str => rfl
  | _ => cases h

/-- The one register a register write can change. -/
theorem eq_of_setReg_reg_ne {s : State} {d r : Reg} {v : Word} (h : (s.setReg d v).reg r ≠ s.reg r) : r = d := by
  by_contra hne
  exact h (by simp [hne])

/-! ### What a TRAP does to pc, the registers and the devices -/

/-- A TRAP holds, in GETC or IN without an answer, or it writes the link and leaves pc alone (44_trap.md R220). -/
theorem trapNext_hold_or_link {v : BitVec 8} {s t : State} (h : TrapNext s v t) :
    ((v = 0x20#8 ∨ v = 0x23#8) ∧ s.answer = .notYet ∧ t = s.hold) ∨ (t.pc = s.pc ∧ t.reg 7 = s.pc) := by
  cases h with
  | getcHold h => exact .inl ⟨.inl rfl, h, rfl⟩
  | inHold h => exact .inl ⟨.inr rfl, h, rfl⟩
  | _ => exact .inr ⟨rfl, by simp⟩

theorem trapNext_cond {v : BitVec 8} {s t : State} (h : TrapNext s v t) : t.cond = s.cond := by
  cases h <;> rfl

/-- A TRAP changes R7, and in GETC and IN also R0 (44_trap.md R233). -/
theorem trapNext_reg_changed {v : BitVec 8} {s t : State} {r : Reg} (h : TrapNext s v t) (hr : t.reg r ≠ s.reg r) :
    r = 7 ∨ (r = 0 ∧ (v = 0x20#8 ∨ v = 0x23#8)) := by
  cases h with
  | getcByte | inByte =>
    by_cases h0 : r = 0
    · exact .inr ⟨h0, by decide⟩
    · exact .inl (eq_of_setReg_reg_ne (v := s.pc) (by simpa [h0] using hr))
  | getcHold | inHold => exact absurd rfl hr
  | _ => exact .inl (eq_of_setReg_reg_ne hr)

theorem trapNext_out {v : BitVec 8} {s t : State} (h : TrapNext s v t) : ∃ bytes, t.out = s.out ++ bytes := by
  cases h with
  | unknown | getcByte | getcFailure | getcHold | inHold => exact ⟨[], (List.append_nil _).symm⟩
  | inByte => exact ⟨_, List.append_assoc ..⟩
  | out | puts | inFailure | putsp | halt => exact ⟨_, rfl⟩

theorem trapNext_input {v : BitVec 8} {s t : State} (h : TrapNext s v t) : t.input = s.input ∨ t.input = s.input.next := by
  cases h with
  | unknown | out | puts | putsp | halt => exact .inl rfl
  | _ => exact .inr rfl

/-! ### COND (R38) -/

/-- The flag `cc` derives is the one R137's three ranges name. -/
theorem flagOf_cc (v : Word) : FlagOf v (cc v) := by
  have hmsb : v.getLsbD 15 = decide (0x8000 ≤ v.toNat) := BitVec.msb_eq_getLsbD_last v ▸ BitVec.msb_eq_decide v
  simp only [FlagOf, cc, hmsb, decide_eq_true_eq, BitVec.toNat_eq, BitVec.toNat_ofNat]
  refine ⟨fun h => if_pos h, fun h => ?_, fun h h' => ?_⟩
  · rw [if_neg (by omega), if_pos h]
  · rw [if_neg (by omega), if_neg (by omega)]

/-- Who writes COND: an instruction with a flag-setting result writes that result's flag, and no other writes it. -/
theorem exec_cond {i : Instr} {s t : State} (h : exec i s = .next t) :
    match flagWriter i with
    | some dr => FlagOf (t.reg dr) t.cond
    | none => t.cond = s.cond := by
  cases exec_next h with
  | result hi => simpa [hi] using flagOf_cc _
  | store hi => simp [flagWriter_of_storeAddr hi]
  | trap ht => exact trapNext_cond ht
  | _ => rfl

/-- The outcome with another COND in its next state, if it has one. -/
def withCondNext (c : Cond) : Host.Outcome State Fault Refusal → Host.Outcome State Fault Refusal
  | .next t => .next { t with cond := c }
  | .fault f => .fault f
  | .refused r => .refused r

theorem reg_withCond (s : State) (c : Cond) (r : Reg) : ({ s with cond := c } : State).reg r = s.reg r := rfl

/-- A TRAP carries COND along unread (44_trap.md R220, R233). -/
theorem execTrap_withCond (v : BitVec 8) (s : State) (c : Cond) :
    execTrap v { s with cond := c } = withCondNext c (execTrap v s) := by
  rcases vector_cases v with hv | rfl | rfl | rfl | rfl | rfl | rfl
  · simp only [execTrap_unknown ((trapRom_none_iff v).2 hv)]; rfl
  · simp only [execTrap_getc, answer_eq]
    cases s.input.answer <;> rfl
  · simp only [execTrap_out]; rfl
  · simp only [execTrap_puts, reg_withCond]
    cases putsBytes s.mem allCells (s.reg 0) <;> rfl
  · simp only [execTrap_in, answer_eq]
    cases s.input.answer <;> rfl
  · simp only [execTrap_putsp, reg_withCond]
    cases putspBytes s.mem allCells (s.reg 0) <;> rfl
  · rfl

/-- No instruction but BR reads COND: with another COND a flag writer's outcome is the same, and any other's differs in
COND alone. -/
theorem exec_withCond {i : Instr} (hi : ∀ n z p off, i ≠ .br n z p off) (s : State) (c : Cond) :
    exec i { s with cond := c } = if (flagWriter i).isSome then exec i s else withCondNext c (exec i s) := by
  cases i with
  | br n z p off => exact absurd rfl (hi n z p off)
  | trap v => exact execTrap_withCond v s c
  | _ => rfl

/-- Settles O14: the writers from `exec_cond`, the readers from `exec_withCond`. -/
theorem condWritersAndReaders : Obligations.CondWritersAndReaders := by
  refine ⟨fun i s t => exec_cond, fun i s c hi => ⟨fun t h => ?_, fun f h => ?_⟩⟩
  · rw [exec_withCond hi, h]
    split <;> rfl
  · rw [exec_withCond hi, h]
    split <;> rfl

/-! ### pc (R36) -/

/-- Settles O23: no other family writes pc, and a TRAP that moves it is a hold. -/
theorem onlyControlTransfersMovePc : Obligations.OnlyControlTransfersMovePc := by
  intro i s t h hpc
  cases exec_next h with
  | branch | noBranch => exact .inl ⟨_, _, _, _, rfl⟩
  | jump => exact .inr (.inl ⟨_, rfl⟩)
  | call => exact .inr (.inr (.inl ⟨_, rfl⟩))
  | callReg => exact .inr (.inr (.inr (.inl ⟨_, rfl⟩)))
  | result | store | reserved | rti => exact absurd rfl hpc
  | trap ht =>
    obtain ⟨hv, hnone, rfl⟩ | ⟨hsame, -⟩ := trapNext_hold_or_link ht
    · exact .inr (.inr (.inr (.inr ⟨hv.imp (congrArg _) (congrArg _), hnone, rfl⟩)))
    · exact absurd hsame hpc

/-! ### The general registers (R32, R43) -/

/-- A register an instruction changes is its destination, or R7 in JSR, JSRR and TRAP, or R0 in GETC and IN. -/
theorem exec_reg_changed {i : Instr} {s t : State} {r : Reg} (h : exec i s = .next t) (hr : t.reg r ≠ s.reg r) :
    flagWriter i = some r ∨
    (r = 7 ∧ ((∃ off, i = .jsr off) ∨ (∃ baseR, i = .jsrr baseR) ∨ ∃ v, i = .trap v)) ∨
    (r = 0 ∧ (i = .trap 0x20#8 ∨ i = .trap 0x23#8)) := by
  cases exec_next h with
  | branch | noBranch | jump | store | reserved | rti => exact absurd rfl hr
  | call => exact .inr (.inl ⟨eq_of_setReg_reg_ne hr, .inl ⟨_, rfl⟩⟩)
  | callReg => exact .inr (.inl ⟨eq_of_setReg_reg_ne hr, .inr (.inl ⟨_, rfl⟩)⟩)
  | result hi => exact .inl (eq_of_setReg_reg_ne hr ▸ hi)
  | trap ht =>
    obtain h7 | ⟨h0, hv⟩ := trapNext_reg_changed ht hr
    · exact .inr (.inl ⟨h7, .inr (.inr ⟨_, rfl⟩)⟩)
    · exact .inr (.inr ⟨h0, hv.imp (congrArg _) (congrArg _)⟩)

/-- A TRAP that is no hold leaves the post-fetch pc in R7. -/
theorem exec_trap_link {v : BitVec 8} {s t : State} (h : exec (.trap v) s = .next t)
    (hv : s.answer ≠ .notYet ∨ (v ≠ 0x20#8 ∧ v ≠ 0x23#8)) : t.reg 7 = s.pc := by
  obtain ⟨hhold, hnone, -⟩ | ⟨-, hlink⟩ := trapNext_hold_or_link (execTrap_next h)
  · tauto
  · exact hlink

/-- Settles O24: JSR and JSRR write the link by their meaning, TRAP by `exec_trap_link`, and `exec_reg_changed` lists who
changes R7. -/
theorem linkRegisterWriters : Obligations.LinkRegisterWriters := by
  refine fun i s t h => ⟨?_, fun h7 => ?_⟩
  · rintro (⟨off, rfl⟩ | ⟨baseR, rfl⟩ | ⟨v, rfl, hv⟩ | ⟨v, rfl, hv⟩)
    · cases h; simp
    · cases h; simp
    · exact exec_trap_link h (.inl hv)
    · exact exec_trap_link h (.inr hv)
  · obtain hi | ⟨-, hi⟩ | ⟨h0, -⟩ := exec_reg_changed h h7
    · exact .inl hi
    · exact .inr hi
    · exact absurd h0 (by decide)

/-- Settles O25: of the registers `exec_reg_changed` lists, only R0 and R7 in GETC and IN are two of one instruction. -/
theorem atMostOneRegisterChanges : Obligations.AtMostOneRegisterChanges := by
  intro i s t r r' h hlt hr hr'
  have hne : r ≠ r' := hlt.ne
  obtain hi | ⟨rfl, hi⟩ | ⟨rfl, hi⟩ := exec_reg_changed h hr
  · obtain hi' | ⟨rfl, hi'⟩ | ⟨rfl, hi'⟩ := exec_reg_changed h hr'
    · exact absurd (Option.some.inj (hi.symm.trans hi')) hne
    · obtain ⟨_, rfl⟩ | ⟨_, rfl⟩ | ⟨_, rfl⟩ := hi' <;> cases hi
    · obtain rfl | rfl := hi' <;> cases hi
  · exact absurd hlt (Fin.le_last r').not_gt
  · obtain hi' | ⟨rfl, -⟩ | ⟨rfl, -⟩ := exec_reg_changed h hr'
    · obtain rfl | rfl := hi <;> cases hi'
    · exact ⟨rfl, rfl, hi⟩
    · exact absurd rfl hne

/-! ### The run and the devices (R39, R40) -/

theorem step_ended {s : State} (h : s.status ≠ .running) : step s = .fault .runEnded := by
  unfold step
  split
  · exact absurd ‹_› h
  · rfl
  · rfl

/-- A step that answers a next state ran, from a running state, the instruction at pc. -/
theorem step_next {s t : State} (h : step s = .next t) :
    s.status = .running ∧ exec (decode (s.mem.read s.pc)) s.advance = .next t := by
  unfold step at h
  split at h
  · exact ⟨‹_›, h⟩
  · cases h
  · cases h

/-- Settles O10: a step with a next state ran, by `step_next`, and an ended run's answer is `step_ended`. -/
theorem endedRunTakesNoStep : Obligations.EndedRunTakesNoStep :=
  fun _ h => ⟨fun _ ht => h (step_next ht).1, step_ended h⟩

/-- An instruction leaves both device streams alone or is a TRAP. -/
theorem exec_devices {i : Instr} {s t : State} (h : exec i s = .next t) :
    (t.out = s.out ∧ t.input = s.input) ∨ ∃ v, i = .trap v ∧ TrapNext s v t := by
  cases exec_next h with
  | trap ht => exact .inr ⟨_, rfl, ht⟩
  | _ => exact .inl ⟨rfl, rfl⟩

/-- Settles O37: outside a TRAP the streams stay, in one `trapNext_out` and `trapNext_input` say how they move. -/
theorem devicesMoveOnlyInTraps : Obligations.DevicesMoveOnlyInTraps := by
  intro s t h
  obtain ⟨-, hexec⟩ := step_next h
  obtain ⟨hout, hin⟩ | ⟨v, hv, ht⟩ := exec_devices hexec
  · exact ⟨⟨[], hout.trans (List.append_nil _).symm⟩, .inl hin, fun hne => hne.elim (absurd hout) (absurd hin)⟩
  · exact ⟨trapNext_out (s := s.advance) ht, trapNext_input (s := s.advance) ht, fun _ => ⟨v, hv⟩⟩

end Sys2Proof.Machine
end

section
/-! Memory and the end of a run: every instruction completes (20_memory.md R62), only a store's own word changes (R64), no
TRAP reads a table in memory (R69), and a step keeps memory canonical and the record of the run's end true. -/

namespace Sys2Proof.Machine

/-! ### A step keeps the invariant (60_exceptions.md R270, R271; 44_trap.md R232) -/

theorem endIsTrue_of_running {s : State} (h : s.status = .running) : EndIsTrue s := by
  simp [EndIsTrue, h]

theorem link_reg_seven (s : State) : s.link.reg 7 = s.pc := by simp

/-- A TRAP that ends the run does so with a true record: its own word lies before pc and R7 holds the link. -/
theorem trapNext_endIsTrue {v : BitVec 8} {s t : State} (h : TrapNext s v t) (hrun : s.status = .running)
    (hword : decode (s.mem.read (s.pc - 1#16)) = .trap v) : EndIsTrue t := by
  have hlink := link_reg_seven s
  cases h with
  | unknown hv => exact ⟨rfl, rfl, ⟨v, hword, hv⟩, hlink⟩
  | getcFailure => exact ⟨rfl, rfl, .inl hword, hlink⟩
  | inFailure => exact ⟨rfl, rfl, .inr hword, hlink⟩
  | halt => exact ⟨hword, hlink⟩
  | getcByte | getcHold | out | puts | inByte | inHold | putsp => exact endIsTrue_of_running hrun

/-- Run on the word before pc, an instruction leaves the run running or ends it with a true record. -/
theorem exec_endIsTrue {i : Instr} {s t : State} (h : exec i s = .next t) (hrun : s.status = .running)
    (hword : decode (s.mem.read (s.pc - 1#16)) = i) : EndIsTrue t := by
  cases exec_next h with
  | reserved | rti => exact ⟨rfl, rfl, hword⟩
  | trap ht => exact trapNext_endIsTrue ht hrun hword
  | branch | noBranch | jump | call | callReg | result | store => exact endIsTrue_of_running hrun

/-- Settles O42: the memory by `exec_mem_wf`, the record by `exec_endIsTrue`, the fetch having put pc after the word. -/
theorem stepKeepsInvariant : Obligations.StepKeepsInvariant := by
  rintro s t ⟨hwf, -⟩ h
  obtain ⟨hrun, hexec⟩ := step_next h
  exact ⟨exec_mem_wf hexec hwf, exec_endIsTrue hexec hrun (by rw [advance_sub_one, advance_mem])⟩

/-! ### Every instruction completes (20_memory.md R62, 44_trap.md R230) -/

/-- A TRAP answers a next state unless PUTS or PUTSP finds no terminator. -/
theorem execTrap_completes (v : BitVec 8) (s : State) : (∃ t, execTrap v s = .next t) ∨
    (execTrap v s = .fault .stringDiverges ∧ (v = 0x22#8 ∨ v = 0x24#8)) := by
  rcases vector_cases v with hv | rfl | rfl | rfl | rfl | rfl | rfl
  · exact .inl ⟨_, execTrap_unknown ((trapRom_none_iff v).2 hv) s⟩
  · rw [execTrap_getc]
    split <;> exact .inl ⟨_, rfl⟩
  · exact .inl ⟨_, execTrap_out s⟩
  · rw [execTrap_puts]
    split
    · exact .inl ⟨_, rfl⟩
    · exact .inr ⟨rfl, .inl rfl⟩
  · rw [execTrap_in]
    split <;> exact .inl ⟨_, rfl⟩
  · rw [execTrap_putsp]
    split
    · exact .inl ⟨_, rfl⟩
    · exact .inr ⟨rfl, .inr rfl⟩
  · exact .inl ⟨_, execTrap_halt s⟩

/-- Settles O12: only TRAP can fail to complete, and `execTrap_completes` says when. -/
theorem instructionsAlwaysComplete : Obligations.InstructionsAlwaysComplete := by
  intro i s
  cases i with
  | trap v =>
    obtain hnext | ⟨hdiv, hv⟩ := execTrap_completes v s
    · exact .inl hnext
    · exact .inr ⟨hdiv, hv.imp (congrArg _) (congrArg _)⟩
  | _ => exact .inl ⟨_, rfl⟩

/-! ### Only the stored word changes (20_memory.md R64) -/

/-- Settles O18: a store writes at `storeAddr` alone, and no other family writes memory. -/
theorem onlyTheStoredWordChanges : Obligations.OnlyTheStoredWordChanges := by
  intro i s t a h ha
  cases exec_next h with
  | store hi => exact read_write_other s.mem _ fun haa => ha (haa ▸ hi)
  | trap ht => rw [trapNext_mem ht]
  | branch | noBranch | jump | call | callReg | result | reserved | rti => rfl

/-! ### No TRAP reads a table in memory (20_memory.md R69) -/

/-- Each way of `TrapNext` is what the TRAP answers there: the converse of `execTrap_next`. -/
theorem execTrap_of_trapNext {v : BitVec 8} {s t : State} (h : TrapNext s v t) : execTrap v s = .next t := by
  cases h with
  | unknown hv => exact execTrap_unknown ((trapRom_none_iff v).2 hv) s
  | getcByte ha | getcFailure ha | getcHold ha => rw [execTrap_getc, ha]
  | inByte ha | inFailure ha | inHold ha => rw [execTrap_in, ha]
  | out => exact execTrap_out s
  | puts hb => rw [execTrap_puts, hb]
  | putsp hb => rw [execTrap_putsp, hb]
  | halt => exact execTrap_halt s

/-- Over another memory a TRAP that scans no string ends in the same state with that memory, but for the word a fault
records, which is then read from it. -/
theorem trapNext_withMem {v : BitVec 8} {s t : State} (m : Memory) (hputs : v ≠ 0x22#8) (hputsp : v ≠ 0x24#8)
    (h : TrapNext s v t) : ∃ st, TrapNext { s with mem := m } v { t with mem := m, status := st } ∧
      (st = t.status ∨ ∃ c a w, t.status = .faulted c a w ∧ st = .faulted c a (m.read a)) := by
  cases h with
  | unknown hv => exact ⟨_, .unknown hv, .inr ⟨_, _, _, rfl, rfl⟩⟩
  | getcFailure ha => exact ⟨_, .getcFailure ha, .inr ⟨_, _, _, rfl, rfl⟩⟩
  | inFailure ha => exact ⟨_, .inFailure ha, .inr ⟨_, _, _, rfl, rfl⟩⟩
  | getcByte ha => exact ⟨_, .getcByte ha, .inl rfl⟩
  | getcHold ha => exact ⟨_, .getcHold ha, .inl rfl⟩
  | out => exact ⟨_, .out, .inl rfl⟩
  | inByte ha => exact ⟨_, .inByte ha, .inl rfl⟩
  | inHold ha => exact ⟨_, .inHold ha, .inl rfl⟩
  | halt => exact ⟨_, .halt, .inl rfl⟩
  | puts => exact absurd rfl hputs
  | putsp => exact absurd rfl hputsp

/-- Settles O35: `trapNext_withMem` gives the state over the other memory, equal in all but memory and status. -/
theorem trapsDoNotReadATableInMemory : Obligations.TrapsDoNotReadATableInMemory := by
  intro v s t m hputs hputsp h
  obtain ⟨st, ht', hst⟩ := trapNext_withMem m hputs hputsp (execTrap_next h)
  refine ⟨_, execTrap_of_trapNext ht', rfl, fun _ => rfl, rfl, rfl, rfl, rfl, fun hno => ?_, fun c a w hf => ?_⟩
  · obtain hsame | ⟨c, a, w, hf, -⟩ := hst
    · exact hsame
    · exact absurd hf (hno c a w)
  · obtain hsame | ⟨c', a', w', hf', hnew⟩ := hst
    · exact .inl (hsame.trans hf)
    · cases hf.symm.trans hf'
      exact .inr hnew

end Sys2Proof.Machine
end

section
/-! The decoder and the encoder against each other (30_encoding.md R94, R99, R100, R103): a word decodes to a well-formed
instruction exactly when it agrees with that instruction's encoding on the bits its form covers. -/

namespace Sys2Proof

/-! ### What a word decodes to, said once -/

/-- The decoder's arms: each form with the opcode and mode bit that select it and the fields it takes. -/
inductive DecodesTo (w : Word) : Instr → Prop where
  | br (h : opcode w = 0x0#4) : DecodesTo w (.br (w.getLsbD 11) (w.getLsbD 10) (w.getLsbD 9) (pcoffset9 w))
  | addReg (h : opcode w = 0x1#4) (hm : immMode w = false) : DecodesTo w (.addReg (fieldDr w) (fieldSr1 w) (fieldSr2 w))
  | addImm (h : opcode w = 0x1#4) (hm : immMode w = true) : DecodesTo w (.addImm (fieldDr w) (fieldSr1 w) (imm5 w))
  | ld (h : opcode w = 0x2#4) : DecodesTo w (.ld (fieldDr w) (pcoffset9 w))
  | st (h : opcode w = 0x3#4) : DecodesTo w (.st (fieldDr w) (pcoffset9 w))
  | jsr (h : opcode w = 0x4#4) (hm : jsrMode w = true) : DecodesTo w (.jsr (pcoffset11 w))
  | jsrr (h : opcode w = 0x4#4) (hm : jsrMode w = false) : DecodesTo w (.jsrr (fieldSr1 w))
  | andReg (h : opcode w = 0x5#4) (hm : immMode w = false) : DecodesTo w (.andReg (fieldDr w) (fieldSr1 w) (fieldSr2 w))
  | andImm (h : opcode w = 0x5#4) (hm : immMode w = true) : DecodesTo w (.andImm (fieldDr w) (fieldSr1 w) (imm5 w))
  | ldr (h : opcode w = 0x6#4) : DecodesTo w (.ldr (fieldDr w) (fieldSr1 w) (offset6 w))
  | str (h : opcode w = 0x7#4) : DecodesTo w (.str (fieldDr w) (fieldSr1 w) (offset6 w))
  | rti (h : opcode w = 0x8#4) : DecodesTo w .rti
  | not (h : opcode w = 0x9#4) : DecodesTo w (.not (fieldDr w) (fieldSr1 w))
  | ldi (h : opcode w = 0xA#4) : DecodesTo w (.ldi (fieldDr w) (pcoffset9 w))
  | sti (h : opcode w = 0xB#4) : DecodesTo w (.sti (fieldDr w) (pcoffset9 w))
  | jmp (h : opcode w = 0xC#4) : DecodesTo w (.jmp (fieldSr1 w))
  | res (h : opcode w = 0xD#4) : DecodesTo w .res
  | lea (h : opcode w = 0xE#4) : DecodesTo w (.lea (fieldDr w) (pcoffset9 w))
  | trap (h : opcode w = 0xF#4) : DecodesTo w (.trap (trapvect8 w))

theorem decodesTo_decode (w : Word) : DecodesTo w (decode w) := by
  rcases opcode_cases (opcode w) with h | h | h | h | h | h | h | h | h | h | h | h | h | h | h | h
  · exact decode_br h ▸ .br h
  · cases hm : immMode w
    · exact decode_addReg h hm ▸ .addReg h hm
    · exact decode_addImm h hm ▸ .addImm h hm
  · exact decode_ld h ▸ .ld h
  · exact decode_st h ▸ .st h
  · cases hm : jsrMode w
    · exact decode_jsrr h hm ▸ .jsrr h hm
    · exact decode_jsr h hm ▸ .jsr h hm
  · cases hm : immMode w
    · exact decode_andReg h hm ▸ .andReg h hm
    · exact decode_andImm h hm ▸ .andImm h hm
  · exact decode_ldr h ▸ .ldr h
  · exact decode_str h ▸ .str h
  · exact decode_rti h ▸ .rti h
  · exact decode_not h ▸ .not h
  · exact decode_ldi h ▸ .ldi h
  · exact decode_sti h ▸ .sti h
  · exact decode_jmp h ▸ .jmp h
  · exact decode_res h ▸ .res h
  · exact decode_lea h ▸ .lea h
  · exact decode_trap h ▸ .trap h

/-! ### Decoding an encoding (R99, R103) -/

theorem regBits_toFin (r : Reg) : (regBits r).toFin = r := rfl

theorem imm5_lowImm {op : BitVec 4} {hi mid : BitVec 3} {imm : Word} (h : fitsSigned 5 imm = true) :
    imm5 (joinOp op (join3And3And6 hi mid (lowImm imm))) = imm := by
  rw [imm5, low5_lowImm, sext_setWidth (by decide) (by decide) h]

theorem offset6_join6 {op : BitVec 4} {hi mid : BitVec 3} {off : Word} (h : fitsSigned 6 off = true) :
    offset6 (joinOp op (join3And3And6 hi mid (off.setWidth 6))) = off := by
  rw [offset6, low6_join6, sext_setWidth (by decide) (by decide) h]

theorem pcoffset9_join9 {op : BitVec 4} {hi : BitVec 3} {off : Word} (h : fitsSigned 9 off = true) :
    pcoffset9 (joinOp op (join3And9 hi (off.setWidth 9))) = off := by
  rw [pcoffset9, low9_join9, sext_setWidth (by decide) (by decide) h]

theorem pcoffset11_joinJsr {op : BitVec 4} {off : Word} (h : fitsSigned 11 off = true) :
    pcoffset11 (joinOp op (joinJsr off)) = off := by
  rw [pcoffset11, low11_joinJsr, sext_setWidth (by decide) (by decide) h]

/-- Settles O5: the opcode and mode bit that `encode` writes select the form's arm, and each field reads back what was
joined there, an immediate or offset because it fits. -/
theorem decodeOfEncode : Obligations.DecodeOfEncode := by
  intro i hi
  cases i with
  | br n z p off =>
    obtain ⟨hn, hz, hp⟩ := nzp_join9 0x0#4 n z p (off.setWidth 9)
    rw [encode, decode_br (opcode_joinOp ..), hn, hz, hp, pcoffset9_join9 hi]
  | addReg dr sr1 sr2 =>
    simp [encode, decode_addReg (opcode_joinOp ..) (immMode_lowReg ..), regBits_toFin]
  | addImm dr sr1 imm =>
    simp [encode, decode_addImm (opcode_joinOp ..) (immMode_lowImm ..), regBits_toFin, imm5_lowImm hi]
  | ld dr off => simp [encode, decode_ld (opcode_joinOp ..), regBits_toFin, pcoffset9_join9 hi]
  | st sr off => simp [encode, decode_st (opcode_joinOp ..), regBits_toFin, pcoffset9_join9 hi]
  | jsr off => simp [encode, decode_jsr (opcode_joinOp ..) (jsrMode_joinJsr ..), pcoffset11_joinJsr hi]
  | jsrr baseR => simp [encode, decode_jsrr (opcode_joinOp ..) (jsrMode_jsrr ..), regBits_toFin]
  | andReg dr sr1 sr2 =>
    simp [encode, decode_andReg (opcode_joinOp ..) (immMode_lowReg ..), regBits_toFin]
  | andImm dr sr1 imm =>
    simp [encode, decode_andImm (opcode_joinOp ..) (immMode_lowImm ..), regBits_toFin, imm5_lowImm hi]
  | ldr dr baseR off => simp [encode, decode_ldr (opcode_joinOp ..), regBits_toFin, offset6_join6 hi]
  | str sr baseR off => simp [encode, decode_str (opcode_joinOp ..), regBits_toFin, offset6_join6 hi]
  | rti => rw [encode, decode_rti (opcode_joinOp ..)]
  | not dr sr => simp [encode, decode_not (opcode_joinOp ..), regBits_toFin]
  | ldi dr off => simp [encode, decode_ldi (opcode_joinOp ..), regBits_toFin, pcoffset9_join9 hi]
  | sti sr off => simp [encode, decode_sti (opcode_joinOp ..), regBits_toFin, pcoffset9_join9 hi]
  | jmp baseR => simp [encode, decode_jmp (opcode_joinOp ..), regBits_toFin]
  | res => rw [encode, decode_res (opcode_joinOp ..)]
  | lea dr off => simp [encode, decode_lea (opcode_joinOp ..), regBits_toFin, pcoffset9_join9 hi]
  | trap vect => rw [encode, decode_trap (opcode_joinOp ..), trapvect8_joinTrap]

/-! ### Every decoded field fits (R94) -/

theorem wf_of_decodesTo {w : Word} {i : Instr} (h : DecodesTo w i) : i.wf = true := by
  cases h with
  | br | ld | st | ldi | sti | lea => exact fitsSigned_sext (n := 9) (by decide) (by decide) _
  | addImm | andImm => exact fitsSigned_sext (n := 5) (by decide) (by decide) _
  | ldr | str => exact fitsSigned_sext (n := 6) (by decide) (by decide) _
  | jsr => exact fitsSigned_sext (n := 11) (by decide) (by decide) _
  | addReg | andReg | not | jsrr | jmp | rti | res | trap => rfl

/-- Settles O6: an immediate or offset is the sign extension of its field, so `fitsSigned_sext` bounds it. -/
theorem decodedInstructionFits : Obligations.DecodedInstructionFits :=
  fun w => wf_of_decodesTo (decodesTo_decode w)

/-! ### The bits a form covers (R100) -/

/-- A word with the bits that the form of `i` does not cover cleared. -/
def Instr.covered (i : Instr) (w : Word) : Word := w &&& ~~~i.ignored

/-- Under a mask that keeps the opcode two words agree when each of their four fields does. -/
theorem eq_on_mask_iff {m w w' : Word} {a b : BitVec 3} {c : BitVec 6}
    (hm : m = joinOp (BitVec.allOnes 4) (join3And3And6 a b c)) : w &&& m = w' &&& m ↔ opcode w = opcode w' ∧
      w.extractLsb' 9 3 &&& a = w'.extractLsb' 9 3 &&& a ∧ w.extractLsb' 6 3 &&& b = w'.extractLsb' 6 3 &&& b ∧
      w.extractLsb' 0 6 &&& c = w'.extractLsb' 0 6 &&& c := by
  conv_lhs => rw [hm, ← word_eta w, ← word_eta w', and_joinOp, and_joinOp, and_join6, and_join6]
  rw [joinOp_inj, join6_inj, BitVec.and_allOnes, BitVec.and_allOnes]

theorem fieldDr_eq_iff {w w' : Word} : fieldDr w = fieldDr w' ↔ w.extractLsb' 9 3 = w'.extractLsb' 9 3 :=
  BitVec.toFin_inj

theorem fieldSr1_eq_iff {w w' : Word} : fieldSr1 w = fieldSr1 w' ↔ w.extractLsb' 6 3 = w'.extractLsb' 6 3 :=
  BitVec.toFin_inj

/-- Of bits [5:0] register mode covers bit 5 and SR2. -/
theorem low_eq_on_registerMode_iff {w w' : Word} :
    w.extractLsb' 0 6 &&& 0b100111#6 = w'.extractLsb' 0 6 &&& 0b100111#6 ↔
      immMode w = immMode w' ∧ fieldSr2 w = fieldSr2 w' := by
  have hand (low : BitVec 6) : low &&& 0b100111#6 =
      (low.extractLsb' 5 1 ++ (0b00#2 ++ low.extractLsb' 0 3 : BitVec (2 + 3)) : BitVec (1 + 5)) := by
    revert low
    decide
  simp only [hand, BitVec.toNat_eq, append_toNat, BitVec.extractLsb'_toNat, Nat.shiftRight_eq_div_pow, immMode_eq,
    decide_eq_decide, Fin.ext_iff, fieldSr2_val]
  omega

/-- Of bits [11:9] JSRR covers bit 11. -/
theorem high_eq_on_jsrr_iff {w w' : Word} :
    w.extractLsb' 9 3 &&& 0b100#3 = w'.extractLsb' 9 3 &&& 0b100#3 ↔ jsrMode w = jsrMode w' := by
  have hand (hi : BitVec 3) : hi &&& 0b100#3 = (hi.extractLsb' 2 1 ++ 0b00#2 : BitVec (1 + 2)) := by
    revert hi
    decide
  simp only [hand, BitVec.toNat_eq, append_toNat, BitVec.extractLsb'_toNat, Nat.shiftRight_eq_div_pow, jsrMode_eq,
    decide_eq_decide]
  omega

/-- Of bits [11:0] TRAP covers the vector. -/
theorem rest_eq_on_trap_iff {w w' : Word} :
    restBits w &&& 0x0FF#12 = restBits w' &&& 0x0FF#12 ↔ trapvect8 w = trapvect8 w' := by
  simp only [BitVec.toNat_eq, BitVec.toNat_and, restBits_toNat, trapvect8, BitVec.extractLsb'_toNat, Nat.shiftRight_zero,
    BitVec.toNat_ofNat, Nat.reducePow, Nat.reduceMod, Nat.and_two_pow_sub_one_eq_mod _ 8]
  omega

/-- ADD and AND in register mode. -/
theorem eq_on_registerMode_iff {w w' : Word} : w &&& ~~~0x0018#16 = w' &&& ~~~0x0018#16 ↔
    opcode w = opcode w' ∧ fieldDr w = fieldDr w' ∧ fieldSr1 w = fieldSr1 w' ∧ immMode w = immMode w' ∧
      fieldSr2 w = fieldSr2 w' := by
  rw [eq_on_mask_iff (a := BitVec.allOnes 3) (b := BitVec.allOnes 3) (c := 0b100111#6) (by decide)]
  simp only [BitVec.and_allOnes, fieldDr_eq_iff, fieldSr1_eq_iff, low_eq_on_registerMode_iff]

theorem eq_on_jsrr_iff {w w' : Word} : w &&& ~~~0x063F#16 = w' &&& ~~~0x063F#16 ↔
    opcode w = opcode w' ∧ jsrMode w = jsrMode w' ∧ fieldSr1 w = fieldSr1 w' := by
  rw [eq_on_mask_iff (a := 0b100#3) (b := BitVec.allOnes 3) (c := 0#6) (by decide)]
  simp only [BitVec.and_allOnes, BitVec.and_zero, and_true, fieldSr1_eq_iff, high_eq_on_jsrr_iff]

theorem eq_on_not_iff {w w' : Word} : w &&& ~~~0x003F#16 = w' &&& ~~~0x003F#16 ↔
    opcode w = opcode w' ∧ fieldDr w = fieldDr w' ∧ fieldSr1 w = fieldSr1 w' := by
  rw [eq_on_mask_iff (a := BitVec.allOnes 3) (b := BitVec.allOnes 3) (c := 0#6) (by decide)]
  simp only [BitVec.and_allOnes, BitVec.and_zero, and_true, fieldDr_eq_iff, fieldSr1_eq_iff]

theorem eq_on_jmp_iff {w w' : Word} : w &&& ~~~0x0E3F#16 = w' &&& ~~~0x0E3F#16 ↔
    opcode w = opcode w' ∧ fieldSr1 w = fieldSr1 w' := by
  rw [eq_on_mask_iff (a := 0#3) (b := BitVec.allOnes 3) (c := 0#6) (by decide)]
  simp only [BitVec.and_allOnes, BitVec.and_zero, and_true, true_and, fieldSr1_eq_iff]

/-- RES and RTI. -/
theorem eq_on_opcode_iff {w w' : Word} : w &&& ~~~0x0FFF#16 = w' &&& ~~~0x0FFF#16 ↔ opcode w = opcode w' := by
  rw [eq_on_mask_iff (a := 0#3) (b := 0#3) (c := 0#6) (by decide)]
  simp only [BitVec.and_zero, and_true]

theorem eq_on_trap_iff {w w' : Word} : w &&& ~~~0x0F00#16 = w' &&& ~~~0x0F00#16 ↔
    opcode w = opcode w' ∧ trapvect8 w = trapvect8 w' := by
  have hmask : ~~~0x0F00#16 = joinOp (BitVec.allOnes 4) 0x0FF#12 := by decide
  rw [← rest_eq_on_trap_iff, ← joinOp_inj, hmask]
  conv_lhs => rw [← join_opcode_rest w, ← join_opcode_rest w', and_joinOp, and_joinOp]
  simp only [BitVec.and_allOnes]

/-! ### Encoding what a word decodes to -/

theorem setWidth_sext {n : Nat} (hn : n ≤ 16) (v : BitVec n) : (sext v).setWidth n = v := by
  apply BitVec.eq_of_getLsbD_eq
  intro i hi
  simp [getLsbD_sext_of_lt hn v hi, hi]

/-- DR or the condmask over pcoffset9 make up the word. -/
theorem join9_fields {w : Word} {op : BitVec 4} (h : opcode w = op) :
    joinOp op (join3And9 (regBits (fieldDr w)) ((pcoffset9 w).setWidth 9)) = w := by
  rw [pcoffset9, setWidth_sext (by decide), ← h]
  apply BitVec.eq_of_toNat_eq
  simp only [joinOp_toNat, join3And9_toNat, opcode_toNat, regBits_toNat, fieldDr_val, BitVec.extractLsb'_toNat,
    Nat.shiftRight_zero]
  omega

/-- DR, SR1 and the six low bits make up the word. -/
theorem join6_fields {w : Word} {op : BitVec 4} {low : BitVec 6} (h : opcode w = op) (hlow : low = w.extractLsb' 0 6) :
    joinOp op (join3And3And6 (regBits (fieldDr w)) (regBits (fieldSr1 w)) low) = w := by
  rw [hlow, ← h]
  exact word_eta w

theorem lowImm_imm5 {w : Word} (hm : immMode w = true) : lowImm (imm5 w) = w.extractLsb' 0 6 := by
  rw [immMode_eq, decide_eq_true_eq] at hm
  rw [lowImm, imm5, setWidth_sext (by decide)]
  apply BitVec.eq_of_toNat_eq
  refine (append_toNat ..).trans ?_
  simp only [BitVec.extractLsb'_toNat, Nat.shiftRight_zero, BitVec.toNat_ofNat]
  omega

theorem joinJsr_pcoffset11 {w : Word} (hm : jsrMode w = true) : joinJsr (pcoffset11 w) = restBits w := by
  rw [jsrMode_eq, decide_eq_true_eq] at hm
  rw [joinJsr, pcoffset11, setWidth_sext (by decide)]
  apply BitVec.eq_of_toNat_eq
  refine (append_toNat ..).trans ?_
  simp only [BitVec.extractLsb'_toNat, Nat.shiftRight_zero, BitVec.toNat_ofNat, restBits_toNat]
  omega

/-- A word and the encoding of what it decodes to agree on the bits the form covers. -/
theorem covered_encode_of_decodesTo {w : Word} {i : Instr} (h : DecodesTo w i) :
    i.covered (encode i) = i.covered w := by
  cases h with
  | br h => rw [encode, ← condmask_eq]; exact congrArg _ (join9_fields h)
  | ld h | st h | ldi h | sti h | lea h => exact congrArg _ (join9_fields h)
  | addImm h hm | andImm h hm => exact congrArg _ (join6_fields h (lowImm_imm5 hm))
  | ldr h | str h => exact congrArg _ (join6_fields h (setWidth_sext (by decide) _))
  | jsr h hm => rw [encode, joinJsr_pcoffset11 hm, ← h, join_opcode_rest]
  | addReg h hm | andReg h hm => exact eq_on_registerMode_iff.2 (by simp [encode, regBits_toFin, h, hm])
  | jsrr h hm => exact eq_on_jsrr_iff.2 (by simp [encode, regBits_toFin, h, hm])
  | not h => exact eq_on_not_iff.2 (by simp [encode, regBits_toFin, h])
  | jmp h => exact eq_on_jmp_iff.2 (by simp [encode, regBits_toFin, h])
  | rti h | res h => exact eq_on_opcode_iff.2 (by simp [encode, h])
  | trap h => exact eq_on_trap_iff.2 (by simp [encode, h])

/-! ### Which words decode alike (R100) -/

theorem eq_of_covered_eq {w w' : Word} {i : Instr} (hi : i.ignored = 0x0000#16) (h : i.covered w = i.covered w') :
    w = w' := by
  simpa only [Instr.covered, hi, BitVec.not_zero, BitVec.and_allOnes] using h

/-- A word that agrees with `w` on the bits `w`'s form covers decodes to the same instruction. -/
theorem decode_eq_of_covered_eq {w w' : Word} (h : (decode w).covered w = (decode w).covered w') :
    decode w' = decode w := by
  by_cases hall : (decode w).ignored = 0x0000#16
  · rw [eq_of_covered_eq hall h]
  have hw := decodesTo_decode w
  generalize decode w = i at h hall hw ⊢
  cases hw with
  | addReg ho hm =>
    obtain ⟨hop, hdr, hsr1, hmode, hsr2⟩ := eq_on_registerMode_iff.1 h
    rw [decode_addReg (hop ▸ ho) (hmode ▸ hm), hdr, hsr1, hsr2]
  | andReg ho hm =>
    obtain ⟨hop, hdr, hsr1, hmode, hsr2⟩ := eq_on_registerMode_iff.1 h
    rw [decode_andReg (hop ▸ ho) (hmode ▸ hm), hdr, hsr1, hsr2]
  | jsrr ho hm =>
    obtain ⟨hop, hmode, hbase⟩ := eq_on_jsrr_iff.1 h
    rw [decode_jsrr (hop ▸ ho) (hmode ▸ hm), hbase]
  | not ho =>
    obtain ⟨hop, hdr, hsr⟩ := eq_on_not_iff.1 h
    rw [decode_not (hop ▸ ho), hdr, hsr]
  | jmp ho =>
    obtain ⟨hop, hbase⟩ := eq_on_jmp_iff.1 h
    rw [decode_jmp (hop ▸ ho), hbase]
  | rti ho => exact decode_rti (eq_on_opcode_iff.1 h ▸ ho)
  | res ho => exact decode_res (eq_on_opcode_iff.1 h ▸ ho)
  | trap ho =>
    obtain ⟨hop, hvect⟩ := eq_on_trap_iff.1 h
    rw [decode_trap (hop ▸ ho), hvect]
  | br | addImm | ld | st | jsr | andImm | ldr | str | ldi | sti | lea => exact absurd rfl hall

theorem xor_and_eq_zero_iff {w w' m : Word} : (w ^^^ w') &&& m = 0x0000#16 ↔ w &&& m = w' &&& m := by
  have hdistrib : (w ^^^ w') &&& m = (w &&& m) ^^^ (w' &&& m) := by
    ext
    simp [Bool.and_xor_distrib_right]
  rw [hdistrib, BitVec.xor_eq_zero_iff]

/-- Settles O7: words that decode alike agree, where the form covers them, with one encoding, and conversely by
`decode_eq_of_covered_eq`. -/
theorem decodingIgnoresUncoveredBitsOnly : Obligations.DecodingIgnoresUncoveredBitsOnly := by
  intro w w'
  rw [xor_and_eq_zero_iff]
  constructor
  · intro h
    calc (decode w).covered w
      _ = (decode w).covered (encode (decode w)) := (covered_encode_of_decodesTo (decodesTo_decode w)).symm
      _ = (decode w).covered w' := covered_encode_of_decodesTo (h ▸ decodesTo_decode w')
  · exact fun h => (decode_eq_of_covered_eq h).symm

/-! ### The opcode table's rows (R95, R99) -/

theorem rowMatches_encode : ∀ i, rowMatches i.row (encode i) = true
  | .br n z p off => Laws.Row.br n z p off
  | .addReg dr sr1 sr2 => Laws.Row.addReg dr sr1 sr2
  | .addImm dr sr1 imm => Laws.Row.addImm dr sr1 imm
  | .ld dr off => Laws.Row.ld dr off
  | .st sr off => Laws.Row.st sr off
  | .jsr off => Laws.Row.jsr off
  | .jsrr baseR => Laws.Row.jsrr baseR
  | .andReg dr sr1 sr2 => Laws.Row.andReg dr sr1 sr2
  | .andImm dr sr1 imm => Laws.Row.andImm dr sr1 imm
  | .ldr dr baseR off => Laws.Row.ldr dr baseR off
  | .str sr baseR off => Laws.Row.str sr baseR off
  | .rti => Laws.Row.rti
  | .not dr sr => Laws.Row.not dr sr
  | .ldi dr off => Laws.Row.ldi dr off
  | .sti sr off => Laws.Row.sti sr off
  | .jmp baseR => Laws.Row.jmp baseR
  | .res => Laws.Row.res
  | .lea dr off => Laws.Row.lea dr off
  | .trap vect => Laws.Row.trap vect

/-- A row tests only bits that its form covers. -/
theorem rowMatches_covered (i : Instr) (w : Word) : rowMatches i.row (i.covered w) = rowMatches i.row w := by
  have hmask : ~~~i.ignored &&& i.row.2 = i.row.2 := by
    cases i <;> simp only [Instr.ignored, Instr.row] <;> decide
  rw [rowMatches, rowMatches, Instr.covered, BitVec.and_assoc, hmask]

theorem rowMatches_decode (w : Word) : rowMatches (decode w).row w = true := by
  rw [← rowMatches_covered, ← covered_encode_of_decodesTo (decodesTo_decode w), rowMatches_covered, rowMatches_encode]

theorem row_mem_opcodeRows (i : Instr) : i.row ∈ opcodeRows := by
  cases i <;> simp [Instr.row, opcodeRows]

/-- The rows `r` and `r'` differ in a bit that both test. -/
abbrev RowsDiffer (r r' : Word × Word) : Prop := r.1 &&& r'.2 ≠ r'.1 &&& r.2

theorem opcodeRows_pairwise : opcodeRows.Pairwise RowsDiffer := by decide

theorem not_rowsDiffer_of_rowMatches {r r' : Word × Word} {w : Word} (h : rowMatches r w = true)
    (h' : rowMatches r' w = true) : ¬RowsDiffer r r' := by
  rw [rowMatches, beq_iff_eq] at h h'
  rw [not_not, ← h, ← h', BitVec.and_assoc, BitVec.and_assoc, BitVec.and_comm r.2]

theorem row_eq_of_rowMatches {r r' : Word × Word} {w : Word} (hr : r ∈ opcodeRows) (hr' : r' ∈ opcodeRows)
    (h : rowMatches r w = true) (h' : rowMatches r' w = true) : r = r' := by
  have hsymm : Std.Symm RowsDiffer := ⟨fun _ _ => Ne.symm⟩
  by_contra hne
  exact not_rowsDiffer_of_rowMatches h h' (opcodeRows_pairwise.forall hr hr' hne)

/-- Settles O8: a word matches the row of its decoded instruction, and the table's rows are disjoint. -/
theorem exactlyOneTableRowMatches : Obligations.ExactlyOneTableRowMatches := by
  refine fun w => ⟨row_mem_opcodeRows _, fun row hrow => ⟨fun h => ?_, fun h => ?_⟩⟩
  · exact row_eq_of_rowMatches hrow (row_mem_opcodeRows _) h (rowMatches_decode w)
  · exact h ▸ rowMatches_decode w

/-! ### Sample words and the Decoder block's outputs (R93, R99, R104) -/

/-- Settles O4: each word is one evaluation of the decoder. -/
theorem sampleWordsDecode : Obligations.SampleWordsDecode := by
  unfold Obligations.SampleWordsDecode
  decide

theorem trapvect8_toNat (w : Word) : (trapvect8 w).toNat = w.toNat % 256 := by
  simp [trapvect8]

/-- A sign-extended field in the low bits of a word, as a number. -/
theorem toInt_sext_low {n : Nat} (hn : n + 1 ≤ 16) (w : Word) : (sext (w.extractLsb' 0 (n + 1))).toInt =
    (w.toNat % 2 ^ (n + 1) : Nat) - (if w.toNat % 2 ^ (n + 1) < 2 ^ n then 0 else ((2 ^ (n + 1) : Nat) : Int)) := by
  rw [sext_toInt hn, BitVec.toInt_eq_toNat_cond, BitVec.extractLsb'_toNat, Nat.shiftRight_zero, pow_succ']
  split <;> split <;> omega

/-- Settles O45: each extractor's number, the signed ones by `toInt_sext_low`. -/
theorem decoderOutputsAreTheFields : Obligations.DecoderOutputsAreTheFields := by
  intro w
  refine ⟨opcode_toNat w, restBits_toNat w, fieldDr_val w, fieldSr1_val w, fieldSr2_val w, ?_, ?_, condmask_toNat w,
    trapvect8_toNat w, toInt_sext_low (n := 4) (by decide) w, toInt_sext_low (n := 5) (by decide) w,
    toInt_sext_low (n := 8) (by decide) w, toInt_sext_low (n := 10) (by decide) w⟩
  · rw [immMode_eq, decide_eq_true_eq]
  · rw [jsrMode_eq, decide_eq_true_eq]

end Sys2Proof
end

section
/-! The instruction cycle (40_cycle.md): what a step of a running state runs (R131, R132), a hold of GETC and IN (R134), and
the Condition-Code Unit's flag (R137). -/

namespace Sys2Proof.Machine

/-! ### A running step (R131, R132) -/

theorem step_running {s : State} (h : s.status = .running) : step s = exec (decode (s.mem.read s.pc)) s.advance := by
  rw [step, h, fetchWord_eq]

/-- Settles O9: `step_running`, the advanced state written out. -/
theorem stepRunsTheDecodedInstruction : Obligations.StepRunsTheDecodedInstruction := by
  rintro s i hrun rfl
  exact step_running hrun

/-! ### A hold (R134) -/

/-- GETC and IN hold while the device has no answer. -/
theorem exec_hold {i : Instr} {s : State} (hi : i = .trap 0x20#8 ∨ i = .trap 0x23#8) (h : s.answer = .notYet) :
    exec i s = .next s.hold := by
  obtain rfl | rfl := hi
  · exact execTrap_of_trapNext (.getcHold h)
  · exact execTrap_of_trapNext (.inHold h)

/-- Settles O36: the step runs the hold of `exec_hold` after the fetch, and a hold takes the fetch back. -/
theorem inputHoldChangesNothing : Obligations.InputHoldChangesNothing := by
  intro s hrun hword hnone
  have hstep : step s = .next s.advance.hold := (step_running hrun).trans (exec_hold hword hnone)
  exact ⟨_, hstep, hold_advance_toCoreState s, hold_input s.advance⟩

/-! ### The flag of a value (R137) -/

/-- R137's three ranges cover every value, so they name one flag only. -/
theorem flagOf_unique {v : Word} {c c' : Cond} (h : FlagOf v c) (h' : FlagOf v c') : c = c' := by
  obtain ⟨hz, hn, hp⟩ := h
  obtain ⟨hz', hn', hp'⟩ := h'
  have hrange : v.toNat = 0 ∨ 0x8000 ≤ v.toNat ∨ (1 ≤ v.toNat ∧ v.toNat ≤ 0x7FFF) := by omega
  obtain hv | hv | ⟨hv, hv'⟩ := hrange
  · exact (hz hv).trans (hz' hv).symm
  · exact (hn hv).trans (hn' hv).symm
  · exact (hp hv hv').trans (hp' hv hv').symm

/-- Settles O13: `cc` gives a flag of the value by `flagOf_cc`, and there is no other. -/
theorem conditionCodeDerivation : Obligations.ConditionCodeDerivation :=
  fun v _ s => ⟨⟨fun h => flagOf_unique h (flagOf_cc v), fun h => h ▸ flagOf_cc v⟩, setCC_cond s v⟩

end Sys2Proof.Machine
end

section
/-! The operate instructions (41_operate.md): the ALU's results as arithmetic (R151), and what writing a result changes and
leaves alone (40_cycle.md R138). -/

namespace Sys2Proof.Machine

/-! ### The ALU as arithmetic (R151) -/

theorem alu_add (a b : Word) : alu .add a b = BitVec.ofNat 16 ((a.toNat + b.toNat) % 65536) :=
  BitVec.eq_of_toNat_eq (by simp [alu])

theorem alu_and (a b : Word) : alu .and a b = BitVec.ofNat 16 (a.toNat &&& b.toNat) := by
  rw [alu, BitVec.ofNat_and, BitVec.ofNat_toNat, BitVec.ofNat_toNat, BitVec.setWidth_eq, BitVec.setWidth_eq]

/-- The complement does not look at the second operand. -/
theorem alu_not (a b : Word) : alu .not a b = BitVec.ofNat 16 (65535 - a.toNat) := by
  apply BitVec.eq_of_toNat_eq
  simp only [alu, BitVec.toNat_not, BitVec.toNat_ofNat]
  omega

/-! ### Writing a result (R138) -/

theorem setResult_writesResult (s : State) (dr : Reg) (v : Word) : WritesResult dr v s (s.setResult dr v) := by
  have hregs : SameRegsBut [dr] s (s.setResult dr v) := by
    intro r hr
    rw [setResult_reg, if_neg (List.ne_of_not_mem_cons hr)]
  exact ⟨by simp, flagOf_cc v, hregs, rfl, fun _ => rfl, rfl, rfl, rfl⟩

/-- An instruction whose meaning is to write a result completes with it, under any name the value has. -/
theorem exec_writesResult {i : Instr} {s : State} {dr : Reg} {w v : Word} (h : exec i s = .next (s.setResult dr w))
    (hw : w = v) : ∃ t, exec i s = .next t ∧ WritesResult dr v s t :=
  ⟨_, h, hw ▸ setResult_writesResult s dr w⟩

/-- Settles O15: each of the five forms writes an ALU result, which `alu_add`, `alu_and` and `alu_not` give as numbers. -/
theorem operateInstructionsComputeTheAlu : Obligations.OperateInstructionsComputeTheAlu := by
  intro dr sr1 sr2 imm s
  refine ⟨?addReg, ?addImm, ?andReg, ?andImm, ?not⟩
  case addReg => exact exec_writesResult rfl (alu_add _ _)
  case addImm => exact exec_writesResult rfl (alu_add _ _)
  case andReg => exact exec_writesResult rfl (alu_and _ _)
  case andImm => exact exec_writesResult rfl (alu_and _ _)
  case not => exact exec_writesResult rfl (alu_not _ _)

end Sys2Proof.Machine
end

section
/-! The loads and stores (42_load_store.md R171-R177): each completes with the addressed word loaded or stored and all else
kept, and what an LDI reads through the pointer cell an STI has just used (90_conflicts.md C3). -/

namespace Sys2Proof.Machine

/-! ### Loads (R171-R174) -/

/-- Settles O16: LD, LDI, LDR and LEA each write a result, the value at its address or the address. -/
theorem loadsWriteTheAddressedWord : Obligations.LoadsWriteTheAddressedWord := by
  intro dr baseR off s
  refine ⟨?ld, ?ldi, ?ldr, ?lea⟩
  case ld | ldi | ldr | lea => exact exec_writesResult rfl rfl

/-! ### Stores (R175-R177) -/

theorem store_writesMemory (s : State) (ea v : Word) : WritesMemory ea v s (s.store ea v) :=
  ⟨⟨read_write_same _ _ _, fun _ ha => read_write_other _ _ ha⟩, fun r _ => store_reg s ea v r, rfl, rfl, rfl, rfl, rfl⟩

/-- An instruction whose meaning is to store a word completes with that word written. -/
theorem exec_writesMemory {i : Instr} {s : State} {ea v : Word} (h : exec i s = .next (s.store ea v)) :
    ∃ t, exec i s = .next t ∧ WritesMemory ea v s t :=
  ⟨_, h, store_writesMemory s ea v⟩

/-- Settles O17: ST, STI and STR each store at their effective address. -/
theorem storesWriteTheAddressedWord : Obligations.StoresWriteTheAddressedWord := by
  intro sr baseR off s
  refine ⟨?st, ?sti, ?str⟩
  case st | sti | str => exact exec_writesMemory rfl

/-! ### Storing and loading through one pointer cell (C3) -/

/-- A value stored through a pointer cell reads back through it, unless it overwrote the pointer by another address. -/
theorem read_read_write_read (m : Memory) {p v : Word} (h : m.read p ≠ p ∨ v = p) :
    (m.write (m.read p) v).read ((m.write (m.read p) v).read p) = v := by
  by_cases hself : m.read p = p
  · have hv : v = p := h.resolve_left (not_not_intro hself)
    simp [hself, hv]
  · rw [read_write_other _ _ (Ne.symm hself), read_write_same]

theorem exec_sti (sr : Reg) (off : Word) (s : State) :
    exec (.sti sr off) s = .next (s.store (s.mem.read (s.pc + off)) (s.reg sr)) := rfl

theorem exec_ldi (dr : Reg) (off : Word) (s : State) :
    exec (.ldi dr off) s = .next (s.setResult dr (s.mem.read (s.mem.read (s.pc + off)))) := rfl

/-- Settles O20: the LDI loads through `p`, which reads back by `read_read_write_read`, or holds the value if the STI wrote
it at `p` itself. -/
theorem indirectRoundTrip : Obligations.IndirectRoundTrip := by
  intro sr dr off off' p s t u hp hsti hmem hp'
  cases hsti.symm.trans (exec_sti sr off s)
  refine ⟨_, exec_ldi dr off' u, fun hback => ?_, fun hself => ?_⟩
  · simp only [setResult_reg, if_true, hmem, store_mem, hp, hp', read_read_write_read s.mem hback]
  · simp only [setResult_reg, if_true, hmem, store_mem, hp, hp', hself, read_write_same]

end Sys2Proof.Machine
end

section
/-! The control transfers (43_control.md R200-R204): when BR is taken, and that a transfer writes pc, a call also R7, and
nothing else. -/

namespace Sys2Proof.Machine

/-! ### BR (R201) -/

/-- COND has one flag set, so the condmask and COND have a bit in common when the condmask has that flag's own bit. -/
theorem branchTaken_iff {n z p : Bool} {c : Cond} :
    branchTaken n z p c = true ↔ (n = true ∧ c = .n) ∨ (z = true ∧ c = .z) ∨ (p = true ∧ c = .p) := by
  cases c with
  | n | z | p => decide +revert

/-- Taken or not, BR writes pc: an untaken one with the post-fetch value it already has. -/
theorem exec_br (n z p : Bool) (off : Word) (s : State) :
    exec (.br n z p off) s = .next (s.setPc (if branchTaken n z p s.cond then s.pc + off else s.pc)) := by
  refine congrArg Host.Outcome.next ?_
  split
  · rfl
  · rfl

theorem setPc_frame (s : State) (target : Word) : SameRegsBut [] s (s.setPc target) ∧
    (s.setPc target).cond = s.cond ∧ SameMemory s (s.setPc target) ∧ SameRun s (s.setPc target) :=
  ⟨fun r _ => setPc_reg s target r, rfl, fun _ => rfl, rfl, rfl, rfl⟩

/-- Settles O21: BR's one equation `exec_br`, its condition read flag by flag by `branchTaken_iff`. -/
theorem branchTakenOnMatchingFlag : Obligations.BranchTakenOnMatchingFlag := by
  intro n z p off s
  rw [← branchTaken_iff]
  exact ⟨_, exec_br n z p off s, fun htaken => if_pos htaken, fun huntaken => if_neg huntaken, setPc_frame s _⟩

/-! ### JMP, JSR and JSRR (R202-R204) -/

theorem link_frame (s : State) : SameRegsBut [7] s s.link ∧ s.link.cond = s.cond ∧ SameMemory s s.link ∧
    SameRun s s.link := by
  have hregs : SameRegsBut [7] s s.link := by
    intro r hr
    rw [link_reg, if_neg (List.ne_of_not_mem_cons hr)]
  exact ⟨hregs, rfl, fun _ => rfl, rfl, rfl, rfl⟩

/-- An instruction whose meaning is to link and go to `target` completes there, with the post-fetch pc in R7. -/
theorem exec_call {i : Instr} {s : State} {target : Word} (h : exec i s = .next (s.link.setPc target)) :
    ∃ t, exec i s = .next t ∧ t.pc = target ∧ t.reg 7 = s.pc ∧ SameRegsBut [7] s t ∧
      t.cond = s.cond ∧ SameMemory s t ∧ SameRun s t :=
  ⟨_, h, rfl, link_reg_seven s, link_frame s⟩

/-- Settles O22: a jump is one write of pc, and both calls are `exec_call` at a target read before the link is written. -/
theorem jumpsAndCallsGoToTheirTarget : Obligations.JumpsAndCallsGoToTheirTarget := by
  intro baseR off s
  refine ⟨?jmp, ?jsr, ?jsrr⟩
  case jmp => exact ⟨_, rfl, setPc_pc s _, setPc_frame s _⟩
  case jsr => exact exec_call rfl
  case jsrr => exact exec_call rfl

end Sys2Proof.Machine
end

section
/-! TRAP and its routines (44_trap.md R220-R233): the trap-vector ROM, how far the two string scans reach, what each routine
does, and the frame and the halt that hold over all vectors. -/

namespace Sys2Proof.Machine

/-! ### The trap-vector ROM (R222) -/

theorem romValid_iff (v : BitVec 8) : romValid v = true ↔ 0x20 ≤ v.toNat ∧ v.toNat ≤ 0x25 := by
  rw [romValid, Option.isSome_iff_ne_none, Ne, trapRom_none_iff]
  omega

/-- Settles O46: validity from `trapRom_none_iff`, the number from `trapRom_code`, a routine's code being its own three
bits. -/
theorem trapRomNumbersSixRoutines : Obligations.TrapRomNumbersSixRoutines := by
  refine fun v => ⟨romValid_iff v, fun hvalid => ?_, fun hinvalid => ?_⟩
  · obtain ⟨r, hr⟩ := Option.isSome_iff_exists.1 hvalid
    rw [romRoutine, hr, ← trapRom_code hr, BitVec.ofNat_toNat, BitVec.setWidth_eq, Option.map_some]
  · rw [romRoutine, Option.map_eq_none_iff, ← Option.not_isSome_iff_eq_none]
    exact Bool.eq_false_iff.1 hinvalid

/-! ### How far a string scan reaches (R228, R230, R231) -/

/-- The word a scan from `p` looks at after k others, wrapping at the top of memory. -/
def Memory.nthWord (m : Memory) (p : Word) (k : Nat) : Word := m.read (p + BitVec.ofNat 16 k)

@[simp] theorem nthWord_zero (m : Memory) (p : Word) : m.nthWord p 0 = m.read p := by
  simp [Memory.nthWord]

theorem nthWord_succ (m : Memory) (p : Word) (k : Nat) : m.nthWord p (k + 1) = m.nthWord (p + 1#16) k := by
  rw [Memory.nthWord, Memory.nthWord, BitVec.ofNat_add, BitVec.add_comm _ 1#16, BitVec.add_assoc]

/-- PUTS's scan, allowed more words than precede the first zero word, finds the low bytes of those. -/
theorem putsBytes_of_first_zero (m : Memory) {n fuel : Nat} {p : Word} (hn : n < fuel)
    (hgo : ∀ k, k < n → m.nthWord p k ≠ 0x0000#16) (hstop : m.nthWord p n = 0x0000#16) :
    putsBytes m fuel p = some ((List.range n).map fun k => lowByte (m.nthWord p k)) := by
  induction fuel generalizing n p with
  | zero => exact absurd hn n.not_lt_zero
  | succ fuel ih =>
    cases n with
    | zero => exact putsBytes_stop m fuel (nthWord_zero m p ▸ hstop)
    | succ n =>
      have hhere : m.read p ≠ 0x0000#16 := nthWord_zero m p ▸ hgo 0 n.succ_pos
      have hrest := ih (p := p + 1#16) (Nat.lt_of_succ_lt_succ hn)
        (fun k hk => nthWord_succ m p k ▸ hgo (k + 1) (Nat.succ_lt_succ hk)) (nthWord_succ m p n ▸ hstop)
      rw [putsBytes_go m fuel hhere, hrest]
      simp [List.range_succ_eq_map, nthWord_succ]

/-- PUTSP's scan, allowed more words than precede the first word with a zero byte, finds both bytes of those, and the low
byte of that word if only its high byte is zero. -/
theorem putspBytes_of_first_zero (m : Memory) {n fuel : Nat} {p : Word} (hn : n < fuel)
    (hgo : ∀ k, k < n → lowByte (m.nthWord p k) ≠ 0x00#8 ∧ highByte (m.nthWord p k) ≠ 0x00#8)
    (hstop : lowByte (m.nthWord p n) = 0x00#8 ∨ highByte (m.nthWord p n) = 0x00#8) :
    putspBytes m fuel p = some
      ((List.range n).flatMap (fun k => [lowByte (m.nthWord p k), highByte (m.nthWord p k)]) ++
        if lowByte (m.nthWord p n) = 0x00#8 then [] else [lowByte (m.nthWord p n)]) := by
  induction fuel generalizing n p with
  | zero => exact absurd hn n.not_lt_zero
  | succ fuel ih =>
    cases n with
    | zero =>
      rw [nthWord_zero] at hstop ⊢
      by_cases hlow : lowByte (m.read p) = 0x00#8
      · simp [putspBytes_stop m fuel hlow, hlow]
      · simp [putspBytes_half m fuel hlow (hstop.resolve_left hlow), hlow]
    | succ n =>
      obtain ⟨hlow, hhigh⟩ : lowByte (m.read p) ≠ 0x00#8 ∧ highByte (m.read p) ≠ 0x00#8 :=
        nthWord_zero m p ▸ hgo 0 n.succ_pos
      have hrest := ih (p := p + 1#16) (Nat.lt_of_succ_lt_succ hn)
        (fun k hk => nthWord_succ m p k ▸ hgo (k + 1) (Nat.succ_lt_succ hk)) (nthWord_succ m p n ▸ hstop)
      rw [putspBytes_go m fuel hlow hhigh, hrest]
      simp [List.range_succ_eq_map, List.flatMap_map, nthWord_succ]

/-- Going up from any address, wrapping at the top, one meets the first address with a property that some address has. -/
theorem exists_first_address (P : Word → Prop) (p : Word) {a : Word} (ha : P a) :
    ∃ n, n < 65536 ∧ (∀ k, k < n → ¬P (p + BitVec.ofNat 16 k)) ∧ P (p + BitVec.ofNat 16 n) := by
  classical
  have hreach : P (p + BitVec.ofNat 16 (a - p).toNat) := by
    rwa [BitVec.ofNat_toNat, BitVec.setWidth_eq, BitVec.add_comm, BitVec.sub_add_cancel]
  have hex : ∃ n, P (p + BitVec.ofNat 16 n) := ⟨_, hreach⟩
  exact ⟨Nat.find hex, (Nat.find_min' hex hreach).trans_lt (a - p).isLt, fun _ => Nat.find_min hex, Nat.find_spec hex⟩

theorem putsBytes_eq_none_iff (m : Memory) (p : Word) :
    putsBytes m allCells p = none ↔ ∀ a, m.read a ≠ 0x0000#16 := by
  refine ⟨fun hnone a ha => ?_, fun h => putsBytes_none m h allCells p⟩
  obtain ⟨n, hn, hgo, hstop⟩ := exists_first_address (m.read · = 0x0000#16) p ha
  cases hnone.symm.trans (putsBytes_of_first_zero m hn hgo hstop)

theorem putspBytes_eq_none_iff (m : Memory) (p : Word) :
    putspBytes m allCells p = none ↔ ∀ a, lowByte (m.read a) ≠ 0x00#8 ∧ highByte (m.read a) ≠ 0x00#8 := by
  refine ⟨fun hnone a => ?_, fun h => putspBytes_none m h allCells p⟩
  by_contra ha
  obtain ⟨n, hn, hgo, hstop⟩ := exists_first_address
    (fun b => lowByte (m.read b) = 0x00#8 ∨ highByte (m.read b) = 0x00#8) p (a := a) (or_iff_not_and_not.2 ha)
  cases hnone.symm.trans (putspBytes_of_first_zero m hn (fun k hk => not_or.1 (hgo k hk)) hstop)

/-! ### PUTS and PUTSP (R228, R230, R231) -/

theorem lowByte_eq_zero_iff (w : Word) : lowByte w = 0x00#8 ↔ w.toNat % 256 = 0 := by
  simp [lowByte, BitVec.toNat_eq]

theorem highByte_eq_zero_iff (w : Word) : highByte w = 0x00#8 ↔ w.toNat / 256 = 0 := by
  have := w.isLt
  simp only [highByte, BitVec.toNat_eq, BitVec.extractLsb'_toNat, Nat.shiftRight_eq_div_pow, BitVec.toNat_ofNat]
  omega

theorem lowByte_eq_setWidth (w : Word) : lowByte w = w.setWidth 8 := by
  simp [lowByte, BitVec.toNat_eq]

theorem highByte_eq_setWidth (w : Word) : highByte w = (w >>> 8).setWidth 8 := by
  simp [highByte, BitVec.toNat_eq]

/-- A TRAP that links and writes `bytes`, under any name the list has, completes so and changes nothing else. -/
theorem exec_linkWrite {v : BitVec 8} {s : State} {bytes bytes' : List Byte} (h : TrapNext s v (s.link.devWrite bytes))
    (hbytes : bytes = bytes') : ∃ t, exec (.trap v) s = .next t ∧ t.out = s.out ++ bytes' ∧ t.reg 7 = s.pc ∧
      t.pc = s.pc ∧ SameRegsBut [7] s t ∧ t.cond = s.cond ∧ SameMemory s t ∧ t.status = s.status ∧
      t.input = s.input := by
  obtain ⟨hregs, hcond, hmem, -⟩ := link_frame s
  exact ⟨_, execTrap_of_trapNext h, hbytes ▸ rfl, link_reg_seven s, rfl, hregs, hcond, hmem, rfl, rfl⟩

theorem exec_puts_diverges_iff (s : State) :
    exec (.trap 0x22#8) s = .fault .stringDiverges ↔ putsBytes s.mem allCells (s.reg 0) = none := by
  rw [exec_trap, execTrap_puts]
  cases putsBytes s.mem allCells (s.reg 0) <;> simp

theorem exec_putsp_diverges_iff (s : State) :
    exec (.trap 0x24#8) s = .fault .stringDiverges ↔ putspBytes s.mem allCells (s.reg 0) = none := by
  rw [exec_trap, execTrap_putsp]
  cases putspBytes s.mem allCells (s.reg 0) <;> simp

/-- Settles O32: a scan of all cells finds no end exactly when there is none. -/
theorem stringsDivergeWithoutTerminator : Obligations.StringsDivergeWithoutTerminator := by
  refine fun s => ⟨?puts, ?putsp⟩
  case puts => rw [exec_puts_diverges_iff, putsBytes_eq_none_iff]
  case putsp =>
    simp only [exec_putsp_diverges_iff, putspBytes_eq_none_iff, Ne, lowByte_eq_zero_iff, highByte_eq_zero_iff]

/-- Settles O28: the string by `putsBytes_of_first_zero`, and the divergence by `putsBytes_eq_none_iff`. -/
theorem putsWritesUpToTheZeroWord : Obligations.PutsWritesUpToTheZeroWord := by
  refine fun s => ⟨fun n hn hgo hstop => ?ends, fun hno t ht => ?diverges⟩
  case ends =>
    have hscan := putsBytes_of_first_zero s.mem hn hgo hstop
    exact exec_linkWrite (.puts hscan) (by simp only [lowByte_eq_setWidth, Memory.nthWord])
  case diverges =>
    have hdiv := (exec_puts_diverges_iff s).2 ((putsBytes_eq_none_iff s.mem _).2 hno)
    cases hdiv.symm.trans ht

/-- Settles O30: the string by `putspBytes_of_first_zero`. -/
theorem putspWritesUpToTheZeroByte : Obligations.PutspWritesUpToTheZeroByte := by
  intro s n lo hi hlo hhi hn hgo hstop
  obtain rfl : lo = fun k => lowByte (s.mem.nthWord (s.reg 0) k) :=
    funext fun k => (hlo k).trans (lowByte_eq_setWidth _).symm
  obtain rfl : hi = fun k => highByte (s.mem.nthWord (s.reg 0) k) :=
    funext fun k => (hhi k).trans (highByte_eq_setWidth _).symm
  have hscan := putspBytes_of_first_zero s.mem hn hgo hstop
  obtain ⟨t, ht, hout, hframe⟩ := exec_linkWrite (.putsp hscan) rfl
  exact ⟨t, ht, hout.trans (List.append_assoc ..).symm, hframe⟩

/-! ### OUT and HALT (R227, R232) -/

/-- Settles O27: OUT links and writes one byte, the one `lowByte` cuts out. -/
theorem outWritesTheLowByte : Obligations.OutWritesTheLowByte := by
  intro s
  have hbyte : lowByte (s.reg 0) = BitVec.ofNat 8 ((s.reg 0).toNat % 256) := by simp [lowByte, BitVec.toNat_eq]
  obtain ⟨t, ht, hout, hlink, -, hframe⟩ := exec_linkWrite (.out (s := s)) (congrArg ([·]) hbyte)
  exact ⟨t, ht, hout, hlink, hframe⟩

/-- Settles O31: HALT links, writes the banner and sets the status, and the link's frame is `link_frame`. -/
theorem haltEndsTheRun : Obligations.HaltEndsTheRun := by
  intro s
  obtain ⟨hregs, hcond, hmem, -⟩ := link_frame s
  exact ⟨_, execTrap_halt s, rfl, rfl, rfl, link_reg_seven s, rfl, hregs, hcond, hmem, rfl⟩

/-! ### A vector without a routine (R223) -/

/-- Settles O33: the fault is raised on the linked state. -/
theorem unknownVectorFaultsAfterLink : Obligations.UnknownVectorFaultsAfterLink := by
  intro v s hv
  obtain ⟨hregs, hcond, hmem, -⟩ := link_frame s
  exact ⟨_, execTrap_of_trapNext (.unknown hv), rfl, link_reg_seven s, rfl, hregs, hcond, hmem, rfl, rfl⟩

/-! ### The frame of every TRAP (R220, R233) -/

theorem trapNext_sameMemory {v : BitVec 8} {s t : State} (h : TrapNext s v t) : SameMemory s t :=
  fun _ => by rw [trapNext_mem h]

theorem trapNext_sameRegs {v : BitVec 8} {s t : State} (h : TrapNext s v t) : SameRegsBut [0, 7] s t := by
  intro r hr
  by_contra hne
  obtain rfl | ⟨rfl, -⟩ := trapNext_reg_changed h hne
  · exact hr (by decide)
  · exact hr (by decide)

/-- Settles O34: the lemmas on `TrapNext`, a hold being the case with the second reading of pc. -/
theorem trapFrame : Obligations.TrapFrame := by
  intro v s t h
  have ht := execTrap_next h
  refine ⟨trapNext_cond ht, trapNext_sameMemory ht, trapNext_sameRegs ht, fun h0 => ?r0, ?pc⟩
  case r0 =>
    obtain h7 | ⟨-, hv⟩ := trapNext_reg_changed ht h0
    · exact absurd h7 (by decide)
    · exact hv
  case pc =>
    obtain ⟨-, -, rfl⟩ | ⟨hpc, -⟩ := trapNext_hold_or_link ht
    · exact .inr ⟨rfl, fun _ _ => rfl, rfl, rfl⟩
    · exact .inl hpc

/-! ### GETC and IN (R226, R229) -/

/-- A character read back from the register it was put in. -/
theorem setReg_zext8_toNat (s : State) (r : Reg) (c : Byte) : ((s.setReg r (zext8 c)).reg r).toNat = c.toNat := by
  rw [setReg_reg, if_pos rfl, zext8, BitVec.toNat_setWidth_of_le (by decide)]

/-- A write of R0 after the link leaves the link in R7. -/
theorem setReg_zero_link_reg_seven {s u : State} (hu : u.regs = s.link.regs) (w : Word) : (u.setReg 0 w).reg 7 = s.pc := by
  rw [setReg_reg, if_neg (by decide), State.reg, hu]
  exact link_reg_seven s

/-- Settles O26: the byte's and the failure's case of `TrapNext`. -/
theorem getcReadsOneCharacter : Obligations.GetcReadsOneCharacter := by
  refine fun s => ⟨fun c hbyte => ?byte, fun hfail => ?failure⟩
  case byte =>
    have ht : TrapNext s 0x20#8 _ := .getcByte hbyte
    exact ⟨_, execTrap_of_trapNext ht, setReg_zext8_toNat _ 0 c, setReg_zero_link_reg_seven rfl _, rfl,
      trapNext_sameRegs ht, rfl, trapNext_sameMemory ht, rfl, rfl, rfl⟩
  case failure =>
    obtain ⟨hregs, hcond, hmem, -⟩ := link_frame s
    exact ⟨_, execTrap_of_trapNext (.getcFailure hfail), rfl, hregs 0 (by decide), link_reg_seven s, rfl, hregs, hcond,
      hmem, rfl, rfl⟩

/-- Settles O29: the byte's and the failure's case of `TrapNext`, the prompt being written in both. -/
theorem inPromptsReadsAndEchoes : Obligations.InPromptsReadsAndEchoes := by
  refine fun s => ⟨fun c hbyte => ?byte, fun hfail => ?failure⟩
  case byte =>
    have ht : TrapNext s 0x23#8 _ := .inByte hbyte
    exact ⟨_, execTrap_of_trapNext ht, rfl, setReg_zext8_toNat _ 0 c, setReg_zero_link_reg_seven rfl _, rfl,
      trapNext_sameRegs ht, rfl, trapNext_sameMemory ht, rfl, rfl⟩
  case failure =>
    obtain ⟨hregs, hcond, hmem, -⟩ := link_frame s
    exact ⟨_, execTrap_of_trapNext (.inFailure hfail), rfl, rfl, hregs 0 (by decide), link_reg_seven s, rfl, hregs, hcond,
      hmem, rfl⟩

/-! ### Only HALT halts (R232; 60_exceptions.md R280) -/

/-- A TRAP that halts a running machine is HALT. -/
theorem trapNext_halted {v : BitVec 8} {s t : State} (h : TrapNext s v t) (hrun : s.status = .running)
    (ht : t.status = .halted) : v = 0x25#8 := by
  cases h with
  | halt => rfl
  | unknown | getcFailure | inFailure => cases ht
  | getcByte | getcHold | out | puts | inByte | inHold | putsp => cases hrun.symm.trans ht

theorem exec_halted {i : Instr} {s t : State} (h : exec i s = .next t) (hrun : s.status = .running)
    (ht : t.status = .halted) : i = .trap 0x25#8 := by
  cases exec_next h with
  | trap hnext => exact congrArg _ (trapNext_halted hnext hrun ht)
  | reserved | rti => cases ht
  | branch | noBranch | jump | call | callReg | result | store => cases hrun.symm.trans ht

/-- Settles O41: a step with a next state ran the word at pc, which `exec_halted` names, and HALT halts. -/
theorem onlyHaltHalts : Obligations.OnlyHaltHalts := by
  refine fun s => ⟨?halts, ?runsHalt⟩
  case halts =>
    rintro ⟨t, h, ht⟩
    obtain ⟨hrun, hexec⟩ := step_next h
    exact ⟨hrun, exec_halted hexec hrun ht⟩
  case runsHalt =>
    rintro ⟨hrun, hword⟩
    have hstep : step s = exec (.trap 0x25#8) s.advance := hword ▸ step_running hrun
    exact ⟨_, hstep.trans (execTrap_halt s.advance), rfl⟩

end Sys2Proof.Machine
end

section
/-! RES and RTI (45_reserved.md R260, R261): the state their fatal fault leaves after the fetch, and the words that take it. -/

namespace Sys2Proof.Machine

theorem opcode_eq_iff (w : Word) (k : BitVec 4) : opcode w = k ↔ w.toNat / 4096 = k.toNat := by
  rw [BitVec.toNat_eq, opcode_toNat]

theorem exec_res (s : State) : exec .res s = .next (s.raise .reservedOpcode) := rfl

theorem exec_rti (s : State) : exec .rti s = .next (s.raise .rtiUnimplemented) := rfl

/-- A fault raised right after the fetch records the word fetched and its address (60_exceptions.md R270). -/
theorem raise_advance (s : State) (c : FaultCause) :
    s.advance.raise c = { s with pc := s.pc + 1#16, status := .faulted c s.pc (s.mem.read s.pc) } := by
  rw [State.raise, instrAddr_eq, instrWord_eq, advance_sub_one, advance_mem]
  rfl

theorem step_of_opcode_res {s : State} (hrun : s.status = .running) (hop : opcode (s.mem.read s.pc) = 0xD#4) :
    step s = .next (s.advance.raise .reservedOpcode) := by
  rw [step_running hrun, decode_res hop, exec_res]

theorem step_of_opcode_rti {s : State} (hrun : s.status = .running) (hop : opcode (s.mem.read s.pc) = 0x8#4) :
    step s = .next (s.advance.raise .rtiUnimplemented) := by
  rw [step_running hrun, decode_rti hop, exec_rti]

/-- Settles O38: `exec_res` and `exec_rti` in every state, and in a step the fault `raise_advance` writes out. -/
theorem reservedOpcodesFault : Obligations.ReservedOpcodesFault := by
  refine ⟨fun s => ⟨_, exec_res s, rfl⟩, fun s => ⟨_, exec_rti s, rfl⟩, fun s hrun => ⟨fun hw => ?res, fun hw => ?rti⟩⟩
  case res =>
    rw [step_of_opcode_res hrun ((opcode_eq_iff _ _).2 hw), raise_advance]
  case rti =>
    rw [step_of_opcode_rti hrun ((opcode_eq_iff _ _).2 hw), raise_advance]

end Sys2Proof.Machine
end

section
/-! Fatal faults (60_exceptions.md R270, R271): which instruction raises which cause, in the state its writes before the
fault have made, and from it the fault table and the precision of every fault. -/

namespace Sys2Proof.Machine

/-! ### Which instruction raises which cause (R271) -/

/-- Run in `s`, an instruction raises a cause in the state `u` that its writes before the fault have made. -/
inductive RaisesIn (s : State) : Instr → FaultCause → State → Prop where
  | reserved : RaisesIn s .res .reservedOpcode s
  | rti : RaisesIn s .rti .rtiUnimplemented s
  | unknown {v : BitVec 8} (h : v.toNat < 0x20 ∨ 0x25 < v.toNat) : RaisesIn s (.trap v) .unknownTrapVector s.link
  | getc (h : s.answer = .failure) : RaisesIn s (.trap 0x20#8) .inputDeviceError s.link.answered
  | inEcho (h : s.answer = .failure) :
    RaisesIn s (.trap 0x23#8) .inputDeviceError (s.link.devWrite Config.inPrompt).answered

theorem exec_of_raisesIn {s u : State} {i : Instr} {cause : FaultCause} (h : RaisesIn s i cause u) :
    exec i s = .next (u.raise cause) := by
  cases h with
  | reserved => exact exec_res s
  | rti => exact exec_rti s
  | unknown hv => exact execTrap_of_trapNext (.unknown hv)
  | getc hfail => exact execTrap_of_trapNext (.getcFailure hfail)
  | inEcho hfail => exact execTrap_of_trapNext (.inFailure hfail)

/-- A TRAP that ends a running machine faulted raised the cause. -/
theorem trapNext_faulted {v : BitVec 8} {s t : State} {cause : FaultCause} {a w : Word} (h : TrapNext s v t)
    (hrun : s.status = .running) (ht : t.status = .faulted cause a w) :
    ∃ u, RaisesIn s (.trap v) cause u ∧ t = u.raise cause := by
  cases h with
  | unknown hv => cases ht; exact ⟨_, .unknown hv, rfl⟩
  | getcFailure hfail => cases ht; exact ⟨_, .getc hfail, rfl⟩
  | inFailure hfail => cases ht; exact ⟨_, .inEcho hfail, rfl⟩
  | halt => cases ht
  | getcByte | getcHold | out | puts | inByte | inHold | putsp => cases hrun.symm.trans ht

/-- An instruction that ends a running machine faulted raised the cause: the converse of `exec_of_raisesIn`. -/
theorem exec_faulted {i : Instr} {s t : State} {cause : FaultCause} {a w : Word} (h : exec i s = .next t)
    (hrun : s.status = .running) (ht : t.status = .faulted cause a w) :
    ∃ u, RaisesIn s i cause u ∧ t = u.raise cause := by
  cases exec_next h with
  | reserved => cases ht; exact ⟨_, .reserved, rfl⟩
  | rti => cases ht; exact ⟨_, .rti, rfl⟩
  | trap hnext => exact trapNext_faulted hnext hrun ht
  | branch | noBranch | jump | call | callReg | result | store => cases hrun.symm.trans ht

/-- A step that faults ran, from a running state, an instruction that raised the cause after the fetch. -/
theorem step_faulted {s t : State} {cause : FaultCause} {a w : Word} (h : step s = .next t)
    (ht : t.status = .faulted cause a w) :
    ∃ u, RaisesIn s.advance (decode (s.mem.read s.pc)) cause u ∧ t = u.raise cause := by
  obtain ⟨hrun, hexec⟩ := step_next h
  exact exec_faulted hexec hrun ht

/-! ### What is written before a fault (R270) -/

/-- Before a fault only R7 and the device streams are written. -/
theorem raisesIn_frame {s u : State} {i : Instr} {cause : FaultCause} (h : RaisesIn s i cause u) :
    u.pc = s.pc ∧ u.cond = s.cond ∧ u.mem = s.mem ∧ SameRegsBut [7] s u := by
  obtain ⟨hregs, -⟩ := link_frame s
  cases h with
  | reserved | rti => exact ⟨rfl, rfl, rfl, fun _ _ => rfl⟩
  | unknown | getc | inEcho => exact ⟨rfl, rfl, rfl, hregs⟩

/-- RES and RTI write no register before their fault, a TRAP writes the link. -/
theorem raisesIn_reg_seven {s u : State} {i : Instr} {cause : FaultCause} (h : RaisesIn s i cause u) :
    (cause = .reservedOpcode ∨ cause = .rtiUnimplemented → u.reg 7 = s.reg 7) ∧
    (cause = .unknownTrapVector ∨ cause = .inputDeviceError → u.reg 7 = s.pc) := by
  have hlink := link_reg_seven s
  cases h with
  | reserved | rti => exact ⟨fun _ => rfl, by simp⟩
  | unknown | getc | inEcho => exact ⟨by simp, fun _ => hlink⟩

/-- Only IN writes output before its fault, the prompt. -/
theorem raisesIn_out {s u : State} {i : Instr} {cause : FaultCause} (h : RaisesIn s i cause u) :
    u.out = s.out ∨ (cause = .inputDeviceError ∧ i = .trap 0x23#8 ∧ u.out = s.out ++ Config.inPrompt) := by
  cases h with
  | inEcho => exact .inr ⟨rfl, rfl, rfl⟩
  | reserved | rti | unknown | getc => exact .inl rfl

/-- Settles O40: the fault adds the status alone to what the `raisesIn` lemmas say was written before it. -/
theorem faultsArePrecise : Obligations.FaultsArePrecise := by
  intro s t cause a w h ht
  obtain ⟨u, hu, rfl⟩ := step_faulted h ht
  obtain ⟨hpc, hcond, hmem, hregs⟩ := raisesIn_frame hu
  obtain ⟨hkept, hlinked⟩ := raisesIn_reg_seven hu
  have hout := raisesIn_out hu
  exact ⟨hpc, hcond, fun b => congrArg (·.read b) hmem, hregs, hkept, hlinked, hout⟩

/-! ### The fault table (R271) -/

theorem raises_reservedOpcode_iff {s : State} {i : Instr} : (∃ u, RaisesIn s i .reservedOpcode u) ↔ i = .res := by
  constructor
  · rintro ⟨u, h⟩
    cases h
    rfl
  · rintro rfl
    exact ⟨_, .reserved⟩

theorem raises_rtiUnimplemented_iff {s : State} {i : Instr} : (∃ u, RaisesIn s i .rtiUnimplemented u) ↔ i = .rti := by
  constructor
  · rintro ⟨u, h⟩
    cases h
    rfl
  · rintro rfl
    exact ⟨_, .rti⟩

theorem raises_unknownTrapVector_iff {s : State} {i : Instr} : (∃ u, RaisesIn s i .unknownTrapVector u) ↔
    ∃ v, i = .trap v ∧ (v.toNat < 0x20 ∨ 0x25 < v.toNat) := by
  constructor
  · rintro ⟨u, h⟩
    cases h with
    | unknown hv => exact ⟨_, rfl, hv⟩
  · rintro ⟨v, rfl, hv⟩
    exact ⟨_, .unknown hv⟩

theorem raises_inputDeviceError_iff {s : State} {i : Instr} : (∃ u, RaisesIn s i .inputDeviceError u) ↔
    (i = .trap 0x20#8 ∨ i = .trap 0x23#8) ∧ s.answer = .failure := by
  constructor
  · rintro ⟨u, h⟩
    cases h with
    | getc hfail => exact ⟨.inl rfl, hfail⟩
    | inEcho hfail => exact ⟨.inr rfl, hfail⟩
  · rintro ⟨rfl | rfl, hfail⟩
    · exact ⟨_, .getc hfail⟩
    · exact ⟨_, .inEcho hfail⟩

/-- The status of a fault raised after the fetch: the record is the fetched word and its address. -/
theorem raise_status_of_raisesIn_advance {s u : State} {i : Instr} {cause : FaultCause}
    (h : RaisesIn s.advance i cause u) : (u.raise cause).status = .faulted cause s.pc (s.mem.read s.pc) := by
  obtain ⟨hpc, -, hmem, -⟩ := raisesIn_frame h
  rw [raise_status, hpc, hmem, advance_sub_one, advance_mem]

/-- A step of a running machine faults exactly when the word at pc raises the cause, and records that word. -/
theorem step_faulted_iff {s : State} {cause : FaultCause} {a w : Word} (hrun : s.status = .running) :
    (∃ t, step s = .next t ∧ t.status = .faulted cause a w) ↔
      a = s.pc ∧ w = s.mem.read s.pc ∧ ∃ u, RaisesIn s.advance (decode w) cause u := by
  constructor
  · rintro ⟨t, h, ht⟩
    obtain ⟨u, hu, rfl⟩ := step_faulted h ht
    cases (raise_status_of_raisesIn_advance hu).symm.trans ht
    exact ⟨rfl, rfl, u, hu⟩
  · rintro ⟨rfl, rfl, u, hu⟩
    exact ⟨_, (step_running hrun).trans (exec_of_raisesIn hu), raise_status_of_raisesIn_advance hu⟩

theorem decode_eq_trap_iff_toNat (w : Word) (v : BitVec 8) :
    decode w = .trap v ↔ w.toNat / 4096 = 0xF ∧ w.toNat % 256 = v.toNat := by
  rw [decode_eq_trap_iff, opcode_eq_iff, BitVec.toNat_eq (y := v), trapvect8_toNat]
  rfl

/-- Settles O39: `step_faulted_iff`, the instruction that raises each cause read off the word's numbers. -/
theorem faultTable : Obligations.FaultTable := by
  refine ⟨fun s cause a w hrun => ?_, rfl, rfl, rfl, rfl⟩
  rw [step_faulted_iff hrun]
  refine and_congr_right' (and_congr_right' ?_)
  cases cause with
  | reservedOpcode => exact raises_reservedOpcode_iff.trans ((decode_eq_res_iff w).trans (opcode_eq_iff w _))
  | rtiUnimplemented => exact raises_rtiUnimplemented_iff.trans ((decode_eq_rti_iff w).trans (opcode_eq_iff w _))
  | unknownTrapVector =>
    simp only [raises_unknownTrapVector_iff, decode_eq_trap_iff, ← trapvect8_toNat]
    constructor
    · rintro ⟨v, ⟨hop, rfl⟩, hv⟩
      exact ⟨(opcode_eq_iff w _).1 hop, hv⟩
    · rintro ⟨hop, hv⟩
      exact ⟨_, ⟨(opcode_eq_iff w _).2 hop, rfl⟩, hv⟩
  | inputDeviceError =>
    rw [raises_inputDeviceError_iff, decode_eq_trap_iff_toNat, decode_eq_trap_iff_toNat, ← and_or_left, and_assoc]
    rfl

end Sys2Proof.Machine
end

section
/-! The state a run starts in (70_reset_and_hazards.md R300-R303), and what a run does over memory that nothing was loaded
into (R305). -/

namespace Sys2Proof.Machine

/-! ### Reset and launch (R300-R303) -/

/-- Settles O1: the registers by `reset_reg`, memory by `read_empty`. -/
theorem resetIsZeroedAndRunning : Obligations.ResetIsZeroedAndRunning :=
  ⟨reset_reg, read_empty, rfl, rfl⟩

/-- A launch sets memory and the input device; the registers are the reset state's. -/
@[simp] theorem launch_reg (m : Memory) (known : List InAnswer) (r : Reg) : (State.launch m known).reg r = 0x0000#16 :=
  reset_reg r

@[simp] theorem launch_mem (m : Memory) (known : List InAnswer) : (State.launch m known).mem = m := rfl

@[simp] theorem launch_status (m : Memory) (known : List InAnswer) : (State.launch m known).status = .running := rfl

/-- Settles O2: a launch keeps the reset state's pc, COND, registers and status. -/
theorem launchStartsAtFixedAddress : Obligations.LaunchStartsAtFixedAddress :=
  fun m known => ⟨rfl, rfl, launch_mem m known, launch_reg m known, launch_status m known⟩

/-- Settles O43: both states are running, so only their memory's form is asked, by `reset_mem_wf` and by hypothesis. -/
theorem launchMeetsInvariant : Obligations.LaunchMeetsInvariant :=
  ⟨⟨reset_mem_wf, endIsTrue_of_running rfl⟩, fun m known hwf => ⟨hwf, endIsTrue_of_running (launch_status m known)⟩⟩

/-! ### Zero memory (R305) -/

/-- Word 0 is the branch with an empty condmask (30_encoding.md R102). -/
theorem decode_zero : decode 0x0000#16 = .br false false false 0x0000#16 := by decide

theorem branchTaken_never (c : Cond) : branchTaken false false false c = false := by
  cases c with
  | n | z | p => rfl

/-- A step over a zero word is the fetch alone. -/
theorem step_of_zero_word {s : State} (hrun : s.status = .running) (hzero : s.mem.read s.pc = 0x0000#16) :
    step s = .next s.advance := by
  rw [step_running hrun, hzero, decode_zero, exec_br, branchTaken_never]
  rfl

theorem run_succ_of_step {M : Host.Core} {s t : M.State} (h : M.step s = .next t) (k : Nat) :
    M.run (k + 1) s = M.run k t := by
  rw [Host.Core.run, h]

/-- pc after k + 1 fetches is pc after k fetches from the next word on. -/
theorem setPc_add_succ (s : State) (k : Nat) :
    s.advance.setPc (s.advance.pc + BitVec.ofNat 16 k) = s.setPc (s.pc + BitVec.ofNat 16 (k + 1)) := by
  rw [advance_pc, BitVec.add_assoc, BitVec.ofNat_add, BitVec.add_comm (BitVec.ofNat 16 k)]
  rfl

/-- Over zero memory k steps move pc on by k: the first is `step_of_zero_word`, which leaves memory and the status alone. -/
theorem run_zero_memory (k : Nat) {s : State} (hrun : s.status = .running) (hzero : ∀ a, s.mem.read a = 0x0000#16) :
    core.run k s = .next (s.setPc (s.pc + BitVec.ofNat 16 k)) := by
  induction k generalizing s with
  | zero =>
    rw [BitVec.add_zero]
    rfl
  | succ k ih =>
    calc core.run (k + 1) s
      _ = core.run k s.advance := run_succ_of_step (step_of_zero_word hrun (hzero s.pc)) k
      _ = .next (s.advance.setPc (s.advance.pc + BitVec.ofNat 16 k)) := ih hrun hzero
      _ = .next (s.setPc (s.pc + BitVec.ofNat 16 (k + 1))) := congrArg _ (setPc_add_succ s k)

/-- Settles O11: `run_zero_memory`, the state with its new pc written out. -/
theorem zeroMemoryRunsForever : Obligations.ZeroMemoryRunsForever :=
  fun _ hrun hzero k => run_zero_memory k hrun hzero

end Sys2Proof.Machine
end

section
/-! Stores and fetches (70_reset_and_hazards.md R307): there is no instruction buffer between them, so a fetch reads what the
last store to its address wrote. -/

namespace Sys2Proof.Machine

/-- ST, STI and STR write their source register to their effective address (42_load_store.md R170). -/
theorem exec_store {i : Instr} {sr baseR : Reg} {off a : Word} {s : State}
    (hi : i = .st sr off ∨ i = .sti sr off ∨ i = .str sr baseR off) (ha : storeAddr i s = some a) :
    exec i s = .next (s.store a (s.reg sr)) := by
  obtain rfl | rfl | rfl := hi
  case inl | inr.inl | inr.inr => cases ha; rfl

/-- Settles O19: by `exec_store` the cell holds SR, which a later step fetches; a store to the instruction's own address
runs after its fetch, and leaves pc where that put it. -/
theorem storesAreSeenByLaterFetches : Obligations.StoresAreSeenByLaterFetches := by
  constructor
  · rintro sr baseR off _ i s t u hi haddr hexec hrun rfl hcell
    cases (exec_store hi haddr).symm.trans hexec
    rw [step_running hrun, hcell, store_mem, read_write_same]
    rfl
  · intro sr baseR off i s hi hrun hword haddr
    have hstep : step s = .next (s.advance.store s.pc (s.reg sr)) := by
      rw [step_running hrun, hword, exec_store (s := s.advance) hi haddr, advance_reg]
    exact ⟨_, hstep, read_write_same s.mem s.pc _, rfl, hrun⟩

end Sys2Proof.Machine
end

section
/-! The loader (70_reset_and_hazards.md R302, 20_memory.md R68): which files parse, and what memory reads after their words
are stored. -/

namespace Sys2Proof.Machine

/-! ### Parsing -/

/-- The words of a file written big-endian from `words` are `words`. -/
theorem imageWords_wordBytes (words : List Word) : imageWords (words.flatMap wordBytes) = some words := by
  induction words with
  | nil => rfl
  | cons w rest ih =>
    change (imageWords (rest.flatMap wordBytes)).map ((w.extractLsb' 8 8 ++ w.extractLsb' 0 8 : BitVec (8 + 8)) :: ·) = _
    rw [ih, word_of_bytes]
    rfl

theorem parseImage_wordBytes (origin : Word) (words : List Word) :
    parseImage ((origin :: words).flatMap wordBytes) = some (origin, words) := by
  rw [parseImage, imageWords_wordBytes]

/-- A file of odd length is truncated mid-word (R68). -/
theorem imageWords_odd (file : List Byte) (h : file.length % 2 = 1) : imageWords file = none := by
  induction file using imageWords.induct with
  | case1 => cases h
  | case2 => rfl
  | case3 b0 b1 rest ih =>
    rw [List.length_cons, List.length_cons] at h
    have hrest : rest.length % 2 = 1 := by omega
    rw [imageWords, ih hrest, Option.map_none]

theorem parseImage_none {file : List Byte} (h : file.length % 2 = 1 ∨ file = []) : parseImage file = none := by
  obtain hodd | rfl := h
  · rw [parseImage, imageWords_odd file hodd]
  · rfl

/-! ### Storing -/

/-- Words stored without passing 0xFFFF leave every cell before the first and after the last one alone. -/
theorem read_storeWords_outside (words : List Word) {m : Memory} {a a' : Word} (hfit : a.toNat + words.length ≤ 65536)
    (hout : a'.toNat < a.toNat ∨ a.toNat + words.length ≤ a'.toNat) : (m.storeWords a words).read a' = m.read a' := by
  induction words generalizing m a with
  | nil => rfl
  | cons w rest ih =>
    simp only [List.length_cons] at hfit hout
    have hne : a' ≠ a := by rintro rfl; omega
    have hsucc : (a + 1#16).toNat = (a.toNat + 1) % 65536 := BitVec.toNat_add ..
    rw [Memory.storeWords, ih (by omega) (by omega), read_write_other _ _ hne]

/-- Words stored without passing 0xFFFF read back in order from the first address on. -/
theorem nthWord_storeWords (words : List Word) {m : Memory} {a : Word} (hfit : a.toNat + words.length ≤ 65536)
    (k : Nat) (hk : k < words.length) : (m.storeWords a words).nthWord a k = words[k] := by
  induction words generalizing m a k with
  | nil => cases hk
  | cons w rest ih =>
    rw [List.length_cons] at hfit
    have hsucc : (a + 1#16).toNat = (a.toNat + 1) % 65536 := BitVec.toNat_add ..
    cases k with
    | zero =>
      rw [nthWord_zero, Memory.storeWords, read_storeWords_outside rest (by omega) (by omega), read_write_same]
      rfl
    | succ k =>
      rw [nthWord_succ, Memory.storeWords, ih (by omega) k (Nat.lt_of_succ_lt_succ hk)]
      rfl

/-! ### One file (R302) -/

theorem loadImage_of_parse {m : Memory} {file : List Byte} {origin : Word} {words : List Word}
    (hparse : parseImage file = some (origin, words)) (hfit : origin.toNat + words.length ≤ 65536) :
    loadImage m file = some (m.storeWords origin words) := by
  rw [loadImage, hparse]
  exact if_pos hfit

theorem loadImage_of_parse_none {m : Memory} {file : List Byte} (hparse : parseImage file = none) :
    loadImage m file = some m := by
  rw [loadImage, hparse]

/-- Settles O44: the image parses into its origin and words, whose cells `nthWord_storeWords` reads and whose surroundings
`read_storeWords_outside` does; a file that does not parse is skipped. -/
theorem loaderStoresContiguously : Obligations.LoaderStoresContiguously := by
  constructor
  · intro m origin words hfit
    exact ⟨_, loadImage_of_parse (parseImage_wordBytes origin words) hfit, nthWord_storeWords words hfit,
      fun _ => read_storeWords_outside words hfit⟩
  · exact fun m file hfile => loadImage_of_parse_none (parseImage_none hfile)

end Sys2Proof.Machine
end
